-- ==== Sys2Proof/Word.lean ====
section
/-! DEFINITION. The two word types of the machine: the byte of a memory cell and the 24-bit address. -/

namespace Sys2Proof

/-- One cell of the memory image, a value 0 to 255 (R6 `BYTE_BITS`, R10). -/
abbrev Byte := BitVec 8

/-- A 24-bit unsigned address (R6 `ADDR_BITS`, R10): the width of `pc` (R12) and of each instruction field (R51). -/
abbrev Addr := BitVec 24

/-- The 16-bit input bitmask a RUN carries (R6 `INPUT_BITS`). -/
abbrev InputWord := BitVec 16

end Sys2Proof
end

