-- ==== Sys2Proof/Config.lean ====
section
/-! DEFINITION. The implementation parameters of R6, all fixed by the spec, and KEYMAP, the one parameter it leaves open. -/

namespace Sys2Proof.Config

/-- R6 `ADDR_BITS`: width of an address. -/
def addrBits : Nat := 24
/-- R6 `MEM_BYTES`: length of the memory image. -/
def memBytes : Nat := 2 ^ 24
/-- R6 `M24`: the address mask. -/
def m24 : Nat := 0xFFFFFF
/-- R6 `BYTE_BITS`: width of one memory cell. -/
def byteBits : Nat := 8
/-- R6 `FIELD_BYTES`: width of each of the three instruction fields, in bytes. -/
def fieldBytes : Nat := 3
/-- R6 `INSTR_BYTES`: length of every instruction. -/
def instrBytes : Nat := 9
/-- R6 `INSTR_PER_FRAME`: instructions executed by one RUN. -/
def instrPerFrame : Nat := 65536
/-- R6 `INPUT_BITS`: width of the input bitmask. -/
def inputBits : Nat := 16
/-- R6 `IN_ADDR`: address of the input bitmask, two bytes. -/
def inAddr : Nat := 0x000000
/-- R6 `PCV_ADDR`: address of the program counter vector, three bytes. -/
def pcvAddr : Nat := 0x000002
/-- R6 `VPAGE_ADDR`: address of the video page selector, one byte. -/
def vpageAddr : Nat := 0x000005
/-- R6 `APAGE_ADDR`: address of the audio page selector, two bytes. -/
def apageAddr : Nat := 0x000006
/-- R6 `AUDIO_BYTES`: length of the audio frame. -/
def audioBytes : Nat := 256
/-- R6 `VIDEO_BYTES`: length of the video frame. -/
def videoBytes : Nat := 65536
/-- R6 `ROM_MAX`: greatest ROM length LOAD accepts. 2^24, by C1 (one sentence of the source says 2^24 - 1). -/
def romMax : Nat := 2 ^ 24

/-- KEYMAP (D13, U2): which input bit each of the 16 keys sets is driver-defined and left open, so it has no body here
(log 14). No rule of the core uses it. `referenceKeymap` of Machine/FramePort.lean is the source's reference mapping. -/
opaque keymap : Fin 16 → Fin 16

end Sys2Proof.Config
end

