-- ==== Sys2Proof/Syntax.lean ====
section
/-! DEFINITION. Syntax: the one instruction (R60), and the items of the spec's assembler notation (R56, R57). -/

namespace Sys2Proof

/-- The instruction set (R52): one entry, one constructor. The operands are three 24-bit absolute addresses, in field
order (R50, R51). `next` is the third field AS IT STOOD WHEN THE BYTES WERE DECODED: the field may change before the
hardware reads it for the jump (R51, R61), so the meaning reads it again from memory (log 13). -/
inductive Instr where
  /-- `CPJ src, dst, next`: copy the byte at `src` to `dst`, then continue at `next` (R60). -/
  | cpj (src dst next : Addr)
  deriving DecidableEq, Repr

namespace Asm

/-- An operand of the notation of R56: a 24-bit constant, or a label with an offset into the item it marks
(`L.src`, `L.dst`, `L.next` are the offsets 0, 3 and 6, R57). Labels are numbers here (log 15). -/
inductive Operand where
  | const (a : Addr)
  | label (name : Nat) (offset : Addr)
  deriving DecidableEq, Repr

/-- One line of source (R56, R57). -/
inductive Item where
  /-- `.org a`. -/
  | org (a : Addr)
  /-- `L:`, a label: the address of the first byte of what follows it. -/
  | mark (name : Nat)
  /-- `.byte b0, b1, ...`. -/
  | byte (bs : List Byte)
  /-- `.addr a`. -/
  | addr (a : Operand)
  /-- `CPJ src, dst, next`. -/
  | cpj (src dst next : Operand)
  /-- `SPIN`: `CPJ 0x000000, 0x000000, L` at label `L` (with no label, at its own location: log 15). -/
  | spin
  deriving DecidableEq, Repr

end Asm

end Sys2Proof
end

