-- ==== Sys2Proof/WellFormed.lean ====
section
/-! DEFINITION. Well-formedness. Every term of `Instr` is a legal instruction, because the type admits exactly the 2^72
operand triples (R52, R53); what can be ill-formed is a triple of constants WRITTEN as an instruction, where a constant
may not fit its 3-byte field. -/

namespace Sys2Proof

/-- Every instruction is well formed: there are no illegal, reserved or hint encodings (R53). -/
def Instr.wellFormed : Instr → Bool
  | .cpj _ _ _ => true

/-- A written constant fits a 3-byte field (R51): at most 0xFFFFFF. C3 is the case that does not. -/
def fitsField (n : Nat) : Bool := n < 2 ^ 24

/-- `CPJ src, dst, next` written with three constants is an instruction when each fits its field (R56, C3). -/
def writtenWellFormed (src dst next : Nat) : Bool :=
  fitsField src && fitsField dst && fitsField next

/-- The instruction a written triple of constants stands for; none where a constant does not fit (C3: "a model must not
widen the `next` field or `pc` to 25 bits"). -/
def Instr.ofWritten (src dst next : Nat) : Option Instr :=
  if writtenWellFormed src dst next then some (.cpj (.ofNat 24 src) (.ofNat 24 dst) (.ofNat 24 next)) else none

end Sys2Proof
end

