-- ==== Sys2Proof/Decode.lean ====
section
/-! DEFINITION. The decoder, total on any bytes, and after it the encoder. Format `ABC` of R50: nine bytes, `src`, `dst`,
`next`, each three bytes with the most significant first. -/

namespace Sys2Proof

/-- The one reason bytes are not an instruction: there are fewer than nine of them (R50, R55). Memory never gives this,
because a fetch wraps and always has nine bytes (R63). -/
inductive DecodeError where
  /-- Raised by `decode` alone, on a list that ends inside the record. Safe: no step raises it. -/
  | tooFewBytes (given : Nat)
  deriving DecidableEq, Repr

/-- Three bytes, most significant first, as a 24-bit address (R51): `b0 ++ b1 ++ b2`. -/
def be24 (b0 b1 b2 : Byte) : Addr := b0 ++ b1 ++ b2

/-- The instruction of nine bytes in ascending address order (the table of R50). -/
def decodeNine (b0 b1 b2 b3 b4 b5 b6 b7 b8 : Byte) : Instr :=
  .cpj (be24 b0 b1 b2) (be24 b3 b4 b5) (be24 b6 b7 b8)

/-- The decoder (R52): the first nine bytes are the instruction, the others are left. -/
def decode : List Byte → Except DecodeError (Instr × List Byte)
  | b0 :: b1 :: b2 :: b3 :: b4 :: b5 :: b6 :: b7 :: b8 :: rest => .ok (decodeNine b0 b1 b2 b3 b4 b5 b6 b7 b8, rest)
  | short => .error (.tooFewBytes short.length)

/-- The instruction of a decoder's answer, where it gives one. -/
def decodedInstr : Except DecodeError (Instr × List Byte) → Option Instr
  | .ok (i, _) => some i
  | .error _ => none

/-- The nine bytes of a 72-bit instruction word in ascending address order: the byte at `pc` is bits 71:64 (R51, D11). -/
def wordBytes (w : BitVec 72) : List Byte :=
  (List.range 9).map fun k => w.extractLsb' (8 * (8 - k)) 8

/-- The 72-bit word of `nbits` bits of `w` numbered as spec/opcode_table.json numbers them: ONE big-endian word of nine
bytes, its bit 0 the least significant bit of the byte at `pc + 8` (R51, D11; log 12). Bits from `nbits` up are zero. -/
def tableWord (nbits w : Nat) : BitVec 72 := .ofNat 72 (w % 2 ^ nbits)

/-- What the decoder reads from the table word; none for more bits than the one instruction has (R55). -/
def decodeTableWord (nbits w : Nat) : Option Instr :=
  if nbits ≤ 72 then decodedInstr (decode (wordBytes (tableWord nbits w))) else none

/-! The encoder. -/

/-- The three bytes of an address, most significant first (R50, `.addr` of R57). -/
def bytes24 (a : Addr) : List Byte :=
  [a.extractLsb' 16 8, a.extractLsb' 8 8, a.extractLsb' 0 8]

/-- The nine bytes of an instruction in ascending address order (R50). -/
def encode : Instr → List Byte
  | .cpj src dst next => bytes24 src ++ bytes24 dst ++ bytes24 next

/-- The 72-bit word of an instruction (R51): `src = w[71:48]`, `dst = w[47:24]`, `next = w[23:0]`. -/
def encodeWord : Instr → BitVec 72
  | .cpj src dst next => src ++ dst ++ next

end Sys2Proof
end

