-- ==== Sys2Proof/Machine/State.lean ====
section
/-! DEFINITION. The machine's state as plain data, the reasons a step can stop, and the state after reset. -/

namespace Sys2Proof.Machine

/-- The memory image `M` (R10) as (address, byte) pairs in one canonical form: addresses strictly rising and below 2^24,
and no entry holding what an unlisted address reads as (`Memory.wf` of Machine/Ops.lean; log 4). -/
abbrev Memory := List Host.Cell

/-- Where a RUN stands (R71; log 3): the next of its numbered steps that has not been taken. -/
inductive FrameStage where
  /-- Step 1, the input latch write (R72). -/
  | inputLatch
  /-- Step 2, the program counter load, and `icount <- 0` (R73). -/
  | pcLoad
  /-- Step 3, the instruction loop (R74). -/
  | loop
  /-- Step 4a, the audio page (R75). -/
  | audio
  /-- Step 4b, the video page (R76). -/
  | video
  /-- Step 5, first half: delivery of the audio frame (R78). -/
  | deliverAudio
  /-- Step 5, second half: delivery of the video frame, then Idle (R78). -/
  | deliverVideo
  deriving DecidableEq, Repr

/-- `phase` of the frame sequencer (R22, R70): Idle, or Running a frame. -/
inductive Phase where
  | idle
  | running (stage : FrameStage)
  deriving DecidableEq, Repr

/-- A command of the host (R81), accepted only in Idle (R86). -/
inductive HostCmd where
  /-- LOAD of a ROM's raw bytes (R79, R80). -/
  | load (rom : List Byte)
  /-- RUN of one frame with its 16-bit input (R71). -/
  | run (input : InputWord)
  /-- Reset, which is construction (R81, R100, D8; log 9). -/
  | reset
  deriving DecidableEq, Repr

/-- What the core hands to the host (R81). -/
inductive Output where
  /-- LOAD succeeded (R79). -/
  | loaded
  /-- The `RomTooLarge` status of LOAD (R80): a reply to the host, not a trap (R93). -/
  | romTooLarge
  /-- `presentAudio`: the audio frame (R78, R82). -/
  | audio (frame : List Byte)
  /-- `presentVideo`: the video frame (R78, R82). -/
  | video (frame : List Byte)
  deriving DecidableEq, Repr

/-- Everything the spec gives the machine (R8, R10 to R26), and the model's own `host` and `out`. One instance (log 20);
no time (log 17). -/
structure State where
  /-- `M`, the memory image, the control locations among its cells (R10, R15). -/
  mem : Memory
  /-- `pc`, the 24-bit program counter latch (R12). Not the vector PCV, which is `M[2..4]` (C2). -/
  pc : Addr
  /-- `icount`, the 17-bit instruction counter of the frame (R21; log 18). -/
  icount : BitVec 17
  /-- `phase` (R22). -/
  phase : Phase
  /-- `inlatch`, the RUN argument held until it is written to `M[0..1]` (R23). -/
  inlatch : InputWord
  /-- `abase`, the audio page base (R23). -/
  abase : Addr
  /-- `vbase`, the video page base (R23). -/
  vbase : Addr
  /-- The audio frame last extracted; none until there is one (R24, R26; log 11). -/
  audio : Option (List Byte)
  /-- The video frame last extracted; none until there is one (R24, R26; log 11). -/
  video : Option (List Byte)
  /-- MODEL'S OWN (log 1): the commands the host has yet to issue, next first. The machine looks at it in Idle only. -/
  host : List HostCmd
  /-- MODEL'S OWN (log 2): everything handed to the host so far, oldest first. The machine never reads it. -/
  out : List Output
  deriving DecidableEq, Repr

/-- The reasons a step can fault: NONE. The spec gives no fault at any level (R90: "A model's step function for `CPJ` is
total and has no fault outcome"; R93; log 19), so the type has no constructor. Safe: nothing stops that the hardware runs. -/
inductive Fault
  deriving DecidableEq, Repr

/-- The reasons a step can be refused. -/
inductive Refusal where
  /-- Raised by an arm of `exec` for an instruction that has no meaning yet; no arm raises it now. Safe. -/
  | notModelled (mnemonic : String)
  deriving DecidableEq, Repr

/-- What a step answers. -/
abbrev Result := Host.Outcome State Fault Refusal

/-- The machine right after reset (R26, R100): `M` all zero (nothing listed), Idle, every latch zero (log 5), no frame. No
command is waiting and nothing has been handed out (log 1, log 2). -/
def State.reset : State where
  mem := []
  pc := 0x000000#24
  icount := 0#17
  phase := .idle
  inlatch := 0x0000#16
  abase := 0x000000#24
  vbase := 0x000000#24
  audio := none
  video := none
  host := []
  out := []

namespace State

/-! One setter a field or group of fields that change together; the meanings and the sequencer are compositions of them. -/

/-- Replace `M`. -/
def setMem (s : State) (m : Memory) : State := { s with mem := m }
/-- Replace `pc`. -/
def setPc (s : State) (a : Addr) : State := { s with pc := a }
/-- Replace `icount`. -/
def setIcount (s : State) (n : BitVec 17) : State := { s with icount := n }
/-- Replace `phase`. -/
def setPhase (s : State) (p : Phase) : State := { s with phase := p }
/-- Replace `inlatch`. -/
def setInlatch (s : State) (w : InputWord) : State := { s with inlatch := w }
/-- Replace `abase` and the audio frame. -/
def setAudio (s : State) (base : Addr) (frame : List Byte) : State := { s with abase := base, audio := some frame }
/-- Replace `vbase` and the video frame. -/
def setVideo (s : State) (base : Addr) (frame : List Byte) : State := { s with vbase := base, video := some frame }
/-- Replace the host's remaining commands. -/
def setHost (s : State) (cs : List HostCmd) : State := { s with host := cs }
/-- Hand outputs to the host, in order, after everything handed before. -/
def emit (s : State) (os : List Output) : State := { s with out := s.out ++ os }

end State

end Sys2Proof.Machine
end

