-- ==== Sys2Proof/Machine/Ops.lean ====
section
/-! DEFINITION. The memory image and its primitives: one byte read and written, `MemRead` (R32), `MemWrite` (R34),
`CopyRange` (R35), the zero fill and the ROM copy of LOAD (R79). There is no register file (R11), no flag (R14) and no
exception to take or return from (R90, R93, R94), so these are all the shared operations there are. -/

namespace Sys2Proof.Machine

/-- The address mask (R33): an unbounded address reduced to 24 bits, `a & 0xFFFFFF`. -/
def maskAddr (a : Nat) : Addr := .ofNat 24 a

namespace Memory

/-- What an address with no entry reads as: 0x00, the reset and zero-fill value of every cell (R26, R79). -/
def unlisted : Byte := 0x00#8

/-- The canonical form from address `lo` up: addresses strictly rising, below 2^24, and no entry equal to `unlisted`. -/
def wfFrom : Nat → Memory → Bool
  | _, [] => true
  | lo, (k, v) :: m => decide (lo ≤ k) && decide (k < 2 ^ 24) && decide (v ≠ unlisted) && wfFrom (k + 1) m

/-- The canonical form: equal memories are equal lists. -/
def wf (m : Memory) : Bool := wfFrom 0 m

/-- The byte at a cell number. -/
def lookup : Memory → Nat → Byte
  | [], _ => unlisted
  | (k, v) :: m, a => if k = a then v else lookup m a

/-- Put a byte at a cell number, keeping the canonical form: the unlisted value leaves no entry. -/
def put : Memory → Nat → Byte → Memory
  | [], a, v => if v = unlisted then [] else [(a, v)]
  | (k, w) :: m, a, v =>
    if a < k then (if v = unlisted then (k, w) :: m else (a, v) :: (k, w) :: m)
    else if a = k then (if v = unlisted then m else (a, v) :: m)
    else (k, w) :: put m a v

/-- `M[a]` (R7, R10): total, without side effect (R38). -/
def read (m : Memory) (a : Addr) : Byte := lookup m a.toNat

/-- `M[a] <- v` (R7, R10): changes that one byte and nothing else (R38). -/
def write (m : Memory) (a : Addr) (v : Byte) : Memory := put m a.toNat v

/-- `MemRead(addr, n)` (R32), the loop as the rule writes it: big-endian, each byte address masked, unsigned. -/
def memRead (m : Memory) (addr n : Nat) : Nat :=
  (List.range n).foldl (fun v i => (v <<< 8) ||| (m.read (maskAddr (addr + i))).toNat) 0

/-- Byte `i` of the `n`-byte value `v`, the most significant first: `v[8*(n-i)-1 : 8*(n-i-1)]` (R34). -/
def byteOf (n v i : Nat) : Byte := .ofNat 8 (v >>> (8 * (n - 1 - i)))

/-- `MemWrite(addr, n, v)` (R34): big-endian, each byte address masked, lowest address first. -/
def memWrite (m : Memory) (addr n v : Nat) : Memory :=
  (List.range n).foldl (fun m i => m.write (maskAddr (addr + i)) (byteOf n v i)) m

/-- `CopyRange(addr, n)` (R35): a fresh sequence, each byte address masked. -/
def copyRange (m : Memory) (addr n : Nat) : List Byte :=
  (List.range n).map fun i => m.read (maskAddr (addr + i))

/-- The memory of 2^24 zero bytes: construction (R26) and the zero fill of LOAD (R79). -/
def zeroed : Memory := []

/-- Bytes stored at consecutive masked addresses from `addr` up. -/
def storeBytes (m : Memory) (addr : Nat) : List Byte → Memory
  | [] => m
  | b :: bs => storeBytes (m.write (maskAddr addr) b) (addr + 1) bs

/-- What a successful LOAD leaves (R79): the zero fill, then the ROM's bytes from address 0. -/
def ofRom (rom : List Byte) : Memory := storeBytes zeroed 0 rom

end Memory

end Sys2Proof.Machine
end

