-- ==== Sys2Proof/Machine/Operands.lean ====
section
/-! DEFINITION. The operand forms. The instruction has one: a 24-bit absolute address in a 3-byte field (R51, R65). Beside
it, the fields the hardware itself reads at the frame boundary: the program counter vector and the page selectors. -/

namespace Sys2Proof.Machine

namespace Memory

/-- A 3-byte big-endian field, `MemRead(addr, 3)`, at most 0xFFFFFF (R32, R51). -/
def readField (m : Memory) (addr : Nat) : Addr := .ofNat 24 (m.memRead addr 3)

/-- The `src` field of the instruction at `pc`: bytes `(pc + 0..2) & M24` (R60 a). -/
def srcField (m : Memory) (pc : Addr) : Addr := m.readField pc.toNat

/-- The `dst` field of the instruction at `pc`: bytes `(pc + 3..5) & M24` (R60 b). -/
def dstField (m : Memory) (pc : Addr) : Addr := m.readField (pc.toNat + 3)

/-- The `next` field of the instruction at `pc`: bytes `(pc + 6..8) & M24` (R60 d). -/
def nextField (m : Memory) (pc : Addr) : Addr := m.readField (pc.toNat + 6)

/-- The program counter vector, `MemRead(0x000002, 3)` (R17, R73). -/
def pcVector (m : Memory) : Addr := m.readField Config.pcvAddr

/-- `audioBase = MemRead(0x000006, 2) << 8` (R19, R75). Irreducible for the elaborator's sake alone:
`Laws/Memory.lean` states it as three bytes. -/
@[irreducible] def audioBase (m : Memory) : Addr := .ofNat 24 (m.memRead Config.apageAddr 2 <<< 8)

/-- `videoBase = MemRead(0x000005, 1) << 16` (R18, R76). Irreducible as `audioBase` is. -/
@[irreducible] def videoBase (m : Memory) : Addr := .ofNat 24 (m.memRead Config.vpageAddr 1 <<< 16)

/-- The single-byte copy of R60 c: read `M[src]`, then write it to `M[dst]`. -/
def copyByte (m : Memory) (src dst : Addr) : Memory := m.write dst (m.read src)

/-- The nine bytes of the instruction at `pc`, each address masked separately (R50, R63). -/
def instrBytesAt (m : Memory) (pc : Addr) : List Byte := m.copyRange pc.toNat Config.instrBytes

end Memory

/-- Fetch (R30, R54): the decoder applied to the nine bytes at `pc`. Decoding all nine at once shows the `next` field as
it stands BEFORE the store; the meaning reads that field again after it (R61, log 13). -/
def fetchInstr (m : Memory) (pc : Addr) : Instr :=
  let b := fun k => m.read (maskAddr (pc.toNat + k))
  decodeNine (b 0) (b 1) (b 2) (b 3) (b 4) (b 5) (b 6) (b 7) (b 8)

end Sys2Proof.Machine
end

