-- ==== Sys2Proof/Machine/CopyJump.lean ====
section
/-! DEFINITION. The copy-and-jump family (40_copy_jump.md): the meaning of its one member. -/

namespace Sys2Proof.Machine

/-- `CPJ src, dst, next` (R60), with `src` and `dst` as fetched in steps a and b. Step c copies the byte; step d sets `pc`
to the `next` field read from memory AFTER the store, at the old `pc` (R61, R62). Writes `M[dst]` and `pc`, nothing
else. -/
def execCpj (src dst : Addr) (s : State) : Result :=
  let m := s.mem.copyByte src dst
  .next ((s.setMem m).setPc (m.nextField s.pc))

end Sys2Proof.Machine
end

