-- ==== Sys2Proof/Machine/Dispatch.lean ====
section
/-! DEFINITION. Dispatch: one arm a constructor of `Instr`. -/

namespace Sys2Proof.Machine

def exec (i : Instr) (s : State) : Host.Outcome State Fault Refusal :=
  match i with
  -- the third operand is not passed: R60 d reads the field from memory after the store (log 13)
  | .cpj src dst _ => Sys2Proof.Machine.execCpj src dst s

end Sys2Proof.Machine
end

