-- ==== Sys2Proof/Machine/Sequencer.lean ====
section
/-! DEFINITION. The frame sequencer, the frame I/O multiplexer and the host commands (41_frame_sequencer.md): the effect of
each step of RUN that is not an instruction, and of LOAD and reset. -/

namespace Sys2Proof.Machine

/-! Idle: the host's commands (R70, R81). -/

/-- LOAD (R79, R80). The length check precedes the zero fill (D7; log 8); a ROM of exactly 2^24 bytes is legal (C1). -/
def loadRom (rom : List Byte) (s : State) : State :=
  if rom.length ≤ Config.romMax then (s.setMem (Memory.ofRom rom)).emit [.loaded] else s.emit [.romTooLarge]

/-- Acceptance of RUN (R70, R71): Idle to Running; the argument goes into `inlatch` (R23, D5). -/
def acceptRun (input : InputWord) (s : State) : State :=
  (s.setInlatch input).setPhase (.running .inputLatch)

/-- Reset commanded in Idle (R81, R100, D8): the constructed state. What the host has received, and what it will do
next, are the host's and stay (log 9). -/
def construct (s : State) : State := (State.reset.setHost s.host).emit s.out

/-- What a command does once taken from the host. -/
def accept : HostCmd → State → State
  | .load rom, s => loadRom rom s
  | .run input, s => acceptRun input s
  | .reset, s => construct s

/-- One step in Idle: the host's next command is taken; with none, the core stays as it is (R70, R81 cadence; log 1). -/
def idleStep (s : State) : State :=
  match s.host with
  | [] => s
  | c :: rest => accept c (s.setHost rest)

/-! Running: the steps of R71. -/

/-- Step 1 (R72): `MemWrite(0x000000, 2, currentInput)`. -/
def latchInput (s : State) : State :=
  (s.setMem (s.mem.memWrite Config.inAddr 2 s.inlatch.toNat)).setPhase (.running .pcLoad)

/-- Step 2 (R73) and the start of step 3: `pc <- MemRead(0x000002, 3)`, `icount <- 0`. -/
def loadPc (s : State) : State :=
  ((s.setPc s.mem.pcVector).setIcount 0#17).setPhase (.running .loop)

/-- The loop test of step 3 (R71, R74): `icount < 65536`. -/
def loopContinues (s : State) : Bool := decide (s.icount.toNat < Config.instrPerFrame)

/-- `icount <- icount + 1` after an instruction that answered a next state (R71, R74). -/
def countInstr : Result → Result
  | .next s => .next (s.setIcount (s.icount + 1#17))
  | .fault r => .fault r
  | .refused r => .refused r

/-- The loop test fails: on to step 4a (R71, R77). Nothing else changes. -/
def leaveLoop (s : State) : State := s.setPhase (.running .audio)

/-- Step 4a (R75): the audio page base, then the 256 bytes it selects. -/
def extractAudio (s : State) : State :=
  (s.setAudio s.mem.audioBase (s.mem.copyRange s.mem.audioBase.toNat Config.audioBytes)).setPhase (.running .video)

/-- Step 4b (R76): the video page base, then the 65,536 bytes it selects. -/
def extractVideo (s : State) : State :=
  (s.setVideo s.mem.videoBase (s.mem.copyRange s.mem.videoBase.toNat Config.videoBytes)).setPhase (.running .deliverAudio)

/-- Step 5 (R78): the audio frame is delivered first. The sink accepts at once (D9; log 10). With no frame extracted,
which no run reaches, nothing is delivered (log 11). -/
def deliverAudio (s : State) : State :=
  (s.emit (s.audio.toList.map .audio)).setPhase (.running .deliverVideo)

/-- Step 5 (R78): then the video frame, and `phase <- Idle`. The latches keep their last values (log 6). -/
def deliverVideo (s : State) : State :=
  (s.emit (s.video.toList.map .video)).setPhase .idle

/-- The state whose very next step executes the instruction at `pc`: inside the loop of R74, with the count not used up. -/
def atInstruction (s : State) : State :=
  (s.setIcount (if loopContinues s then s.icount else 0#17)).setPhase (.running .loop)

end Sys2Proof.Machine
end

