-- ==== Sys2Proof/Machine/Step.lean ====
section
/-! DEFINITION. One step of the machine: in Idle, one command of the host; while Running, one step of R71, one instruction
being one step of the loop. -/

namespace Sys2Proof.Machine

/-- One step (R70, R71; log 3). -/
def step (s : State) : Host.Outcome State Fault Refusal :=
  match s.phase with
  | .idle => .next (idleStep s)
  | .running .inputLatch => .next (latchInput s)
  | .running .pcLoad => .next (loadPc s)
  | .running .loop =>
    if loopContinues s then countInstr (exec (fetchInstr s.mem s.pc) s) else .next (leaveLoop s)
  | .running .audio => .next (extractAudio s)
  | .running .video => .next (extractVideo s)
  | .running .deliverAudio => .next (deliverAudio s)
  | .running .deliverVideo => .next (deliverVideo s)

/-- `s` with the table word stored at `pc` and the sequencer inside the instruction loop, so that the next step fetches
and runs exactly it (log 12). -/
def State.withFetchWord (s : State) (nbits w : Nat) : State :=
  atInstruction (s.setMem (s.mem.storeBytes s.pc.toNat (wordBytes (tableWord nbits w))))

end Sys2Proof.Machine
end

