-- ==== Sys2Proof/Machine/Assemble.lean ====
section
/-! DEFINITION. The spec's assembler notation (R56, R57): source items to ROM bytes. Notation only: nothing the hardware
does depends on it (D10; log 15). -/

namespace Sys2Proof.Asm

open Sys2Proof.Machine

/-- The location after an item that stands at `loc`. -/
def Item.after (loc : Nat) : Item → Nat
  | .org a => a.toNat
  | .mark _ => loc
  | .byte bs => loc + bs.length
  | .addr _ => loc + Config.fieldBytes
  | .cpj _ _ _ => loc + Config.instrBytes
  | .spin => loc + Config.instrBytes

/-- Each label with its address: that of the first byte of what it marks (R56). DESIGN CHOICE (log 15), where the spec
is silent: a label that no placed byte directly follows (it is last in the source, or stands before `.org` or an empty
`.byte`) has the location before what follows, masked, so 0x000000 at 2^24; and a source starts at location 0. -/
def labels : Nat → List Item → List (Nat × Addr)
  | _, [] => []
  | loc, .mark l :: rest => (l, maskAddr loc) :: labels loc rest
  | loc, it :: rest => labels (it.after loc) rest

/-- The address an operand names; none for a label that stands nowhere in the
source (DESIGN CHOICE, log 15). -/
def Operand.value (table : List (Nat × Addr)) : Operand → Option Addr
  | .const a => some a
  | .label l offset => (table.lookup l).map (· + offset)

/-- The bytes an item places at `loc` (R57). DESIGN CHOICE (log 15): R57 expands `SPIN` only at a label `L`; a `SPIN` that no
label marks is expanded with the location it stands at, which is `L`'s address where a label does mark it. -/
def Item.bytes (table : List (Nat × Addr)) (loc : Nat) : Item → Option (List Byte)
  | .org _ => some []
  | .mark _ => some []
  | .byte bs => some bs
  | .addr a => (a.value table).map bytes24
  | .cpj src dst next => do return encode (.cpj (← src.value table) (← dst.value table) (← next.value table))
  | .spin => some (encode (.cpj 0x000000#24 0x000000#24 (maskAddr loc)))

/-- Place the items from `loc` on: the memory they leave, and one past the highest placed byte. Nothing is placed past
the top of memory. -/
def place (table : List (Nat × Addr)) : Nat → List Item → Memory × Nat → Option (Memory × Nat)
  | _, [], image => some image
  | loc, it :: rest, (m, top) => do
    let bs ← it.bytes table loc
    if loc + bs.length ≤ Config.memBytes then
      place table (it.after loc) rest
        (m.storeBytes loc bs, if bs.isEmpty then top else max top (loc + bs.length))
    else none

/-- The ROM image (R57): "the bytes so placed from address 0 up to the highest placed byte, with zero in every byte not
placed"; empty where none is placed (DESIGN CHOICE, log 15). -/
def assemble (items : List Item) : Option (List Byte) :=
  (place (labels 0 items) 0 items (Memory.zeroed, 0)).map fun image => image.1.copyRange 0 image.2

end Sys2Proof.Asm
end

