-- ==== Sys2Proof/Machine/Frame.lean ====
section
/-! DEFINITION. One RUN as the function R71 and R84 describe: from a memory and an input to a memory and two frames. It is
written over memory and `pc` alone, beside the step function and not through it, so that the two can be compared. -/

namespace Sys2Proof.Machine

/-- The observation of one frame (R85): `M` after it, the audio frame, the video frame. The `pc` after the last
instruction stands beside it for comparison with the latch; it is no part of the observation. -/
structure FrameResult where
  mem : Memory
  audio : List Byte
  video : List Byte
  pc : Addr
  deriving DecidableEq, Repr

/-- One CPJ on a memory and a `pc`, steps a to d of R60 in order. -/
def cpjOn (c : Memory × Addr) : Memory × Addr :=
  let m := c.1.copyByte (c.1.srcField c.2) (c.1.dstField c.2)
  (m, m.nextField c.2)

/-- `n` instructions, one after another (R74). -/
def instrsOn : Nat → Memory × Addr → Memory × Addr
  | 0, c => c
  | n + 1, c => instrsOn n (cpjOn c)

/-- Memory and `pc` when the instruction loop begins: the latch written (R72), then `pc` loaded (R73). -/
def frameStart (m : Memory) (input : InputWord) : Memory × Addr :=
  let m := m.memWrite Config.inAddr 2 input.toNat
  (m, m.pcVector)

/-- The frames extracted from the memory the loop leaves (R75, R76, R77). -/
def extractFrames (c : Memory × Addr) : FrameResult where
  mem := c.1
  audio := c.1.copyRange c.1.audioBase.toNat Config.audioBytes
  video := c.1.copyRange c.1.videoBase.toNat Config.videoBytes
  pc := c.2

/-- RUN (R71): latch, load `pc`, 65,536 instructions, extract. -/
def runFrame (m : Memory) (input : InputWord) : FrameResult :=
  extractFrames (instrsOn Config.instrPerFrame (frameStart m input))

/-- A session of RUNs with no LOAD between them (R27, R85): memory is carried from frame to frame, and each frame hands
out its audio and then its video. -/
def session : List InputWord → Memory → Memory × List Output
  | [], m => (m, [])
  | input :: inputs, m =>
    let r := runFrame m input
    let later := session inputs r.mem
    (later.1, [.audio r.audio, .video r.video] ++ later.2)

end Sys2Proof.Machine
end

