-- ==== Sys2Proof/Machine/FramePort.lean ====
section
/-! DEFINITION. The meaning of the bytes that cross the Frame I/O Port (R82, R83), for naming what a test sees. The core
moves these bytes without interpreting them; nothing else in the model uses this file. -/

namespace Sys2Proof.Machine.FramePort

/-- The source's reference mapping (R16, R83): key "0" to bit 0, ..., key "9" to bit 9, key "A" to bit 10, ..., key "F"
to bit 15. -/
def referenceKeymap (key : Fin 16) : Fin 16 := key

/-- The bitmask of the active keys under a mapping: a set bit means the key is currently active (R16, R82). -/
def inputWord (keymap : Fin 16 → Fin 16) (active : List (Fin 16)) : InputWord :=
  active.foldl (fun w k => w ||| (1#16 <<< (keymap k).val)) 0

/-- `pollInput` (R82) under the deployment's own KEYMAP, which is left open (D13; log 14). The host calls it and passes
the word to RUN (C7). -/
def pollInput (active : List (Fin 16)) : InputWord := inputWord Config.keymap active

/-- The pixel in row `r`, column `c` of a row-major 256 by 256 frame (R76): byte `r ++ c`. Which corner row 0, column 0
is drawn in is the presenter's (N4). -/
def pixel (frame : List Byte) (r c : Byte) : Option Byte := frame[(r ++ c).toNat]?

/-- What a pixel value selects (R83): a point of the 6 by 6 by 6 colour cube, or the presenter's fixed sentinel, whose
colour no source gives (U1, N14; log 16). -/
inductive Colour where
  | cube (red green blue : Fin 6)
  | sentinel
  deriving DecidableEq, Repr

/-- `index = 36·red + 6·green + blue` (R83). -/
def cubeIndex (red green blue : Fin 6) : Nat := 36 * red.val + 6 * green.val + blue.val

/-- The colour a pixel value selects (R83): values 0 to 215 index the cube, 216 to 255 are the sentinel. -/
def colourOf (v : Byte) : Colour :=
  if v.toNat < 216 then .cube (.ofNat 6 (v.toNat / 36)) (.ofNat 6 (v.toNat / 6)) (.ofNat 6 v.toNat) else .sentinel

end Sys2Proof.Machine.FramePort
end

