-- ==== Sys2Proof/Machine/Port.lean ====
section
/-! DEFINITION. The memory port (20_memory.md R37, R40): the byte accesses each step of the machine makes, in the order of
R40, each with its requester and the value moved. Instrumentation beside the step and no part of State: the hardware has
no counter a program can read (R96, R99). -/

namespace Sys2Proof.Machine

/-- The requesters of the table of R37. -/
inductive Requester where
  | inputLatch | pcVector | srcField | dstField | data | nextField
  | audioSelector | audioBlock | videoSelector | videoBlock | load
  deriving DecidableEq, Repr

/-- The port reads or writes one byte at a time (R37). -/
inductive AccessKind where
  | read | write
  deriving DecidableEq, Repr

/-- One byte access on the port: who asked, which way, the masked address, the byte moved. -/
structure PortAccess where
  requester : Requester
  kind : AccessKind
  addr : Addr
  value : Byte
  deriving DecidableEq, Repr

namespace Port

/-- `n` byte reads at consecutive masked addresses, lowest first (R37, D4; log 7). -/
def reads (q : Requester) (m : Memory) (addr n : Nat) : List PortAccess :=
  (List.range n).map fun i => ⟨q, .read, maskAddr (addr + i), m.read (maskAddr (addr + i))⟩

/-- Bytes written at consecutive masked addresses, lowest first (R37, D4; log 7). -/
def writes (q : Requester) (addr : Nat) : List Byte → List PortAccess
  | [] => []
  | b :: bs => ⟨q, .write, maskAddr addr, b⟩ :: writes q (addr + 1) bs

/-- Every cell written with zero by LOAD, in ascending order (R79). -/
def zeroFill : List PortAccess :=
  (List.range Config.memBytes).map fun a => ⟨.load, .write, maskAddr a, 0x00#8⟩

/-- Step 3 of R40 for one instruction: a, b, c, d in order; d reads the `next` field of the memory c left. -/
def ofCpj (m : Memory) (pc : Addr) : List PortAccess :=
  let src := m.srcField pc
  let dst := m.dstField pc
  reads .srcField m pc.toNat 3 ++ reads .dstField m (pc.toNat + 3) 3 ++
    [⟨.data, .read, src, m.read src⟩, ⟨.data, .write, dst, m.read src⟩] ++
    reads .nextField (m.copyByte src dst) (pc.toNat + 6) 3

/-- The accesses of one host command: LOAD writes every cell and then the ROM's, or nothing when it fails (R79, R80);
RUN's acceptance makes none; nor does reset, because R40 has no requester in Idle but LOAD (log 7). -/
def ofCommand : HostCmd → List PortAccess
  | .load rom => if rom.length ≤ Config.romMax then zeroFill ++ writes .load 0 rom else []
  | .run _ => []
  | .reset => []

/-- The accesses of the step the machine takes in `s`, in the order of R40. -/
def ofStep (s : State) : List PortAccess :=
  match s.phase with
  | .idle => match s.host with
    | [] => []
    | c :: _ => ofCommand c
  | .running .inputLatch =>
    writes .inputLatch Config.inAddr [s.inlatch.extractLsb' 8 8, s.inlatch.extractLsb' 0 8]
  | .running .pcLoad => reads .pcVector s.mem Config.pcvAddr 3
  | .running .loop => if loopContinues s then ofCpj s.mem s.pc else []
  | .running .audio =>
    reads .audioSelector s.mem Config.apageAddr 2 ++ reads .audioBlock s.mem s.mem.audioBase.toNat Config.audioBytes
  | .running .video =>
    reads .videoSelector s.mem Config.vpageAddr 1 ++ reads .videoBlock s.mem s.mem.videoBase.toNat Config.videoBytes
  | .running .deliverAudio => []
  | .running .deliverVideo => []

/-- Serve accesses one by one on a RAM (R38, R42): a write changes its cell; a read must return the latest earlier write
to its cell, or what the memory held. The memory left, or none where a read returned anything else. -/
def serve : List PortAccess → Memory → Option Memory
  | [], m => some m
  | ⟨_, .read, a, v⟩ :: rest, m => if m.read a = v then serve rest m else none
  | ⟨_, .write, a, v⟩ :: rest, m => serve rest (m.write a v)

/-- How many accesses are of one kind (R41). -/
def count (k : AccessKind) (l : List PortAccess) : Nat := l.countP fun p => p.kind = k

end Port

end Sys2Proof.Machine
end

