-- ==== Sys2Proof/Safety.lean ====
section
/-! DEFINITION. What counts as a safe run, in the terms claims use: a step that answers a next state, the invariant every
step keeps, whole runs, and the port accesses of a run. -/

namespace Sys2Proof.Machine

/-- The step answers a next state: no fault, no refusal (R90). -/
def State.AnswersNext (s : State) : Prop := ∃ t, step s = .next t

/-- The two INPUT bytes hold the latched word, high byte first (R16, R72). -/
def State.InputLatched (s : State) : Prop :=
  s.mem.read 0#24 = s.inlatch.extractLsb' 8 8 ∧ s.mem.read 1#24 = s.inlatch.extractLsb' 0 8

/-- `abase` and the audio frame are what APAGE and its page hold now (R75). -/
def State.AudioExtracted (s : State) : Prop :=
  s.abase = s.mem.audioBase ∧ s.audio = some (s.mem.copyRange s.abase.toNat Config.audioBytes)

/-- `vbase` and the video frame are what VPAGE and its page hold now (R76). -/
def State.VideoExtracted (s : State) : Prop :=
  s.vbase = s.mem.videoBase ∧ s.video = some (s.mem.copyRange s.vbase.toNat Config.videoBytes)

/-- What holds at each step of a RUN. When the first instruction is about to run the input is latched and `pc` is PCV
(R72, R73); no instruction runs past the 65,536th (R74); the frames on their way out are one snapshot of the memory the
loop left (R77). -/
def State.StageInv (s : State) : Prop :=
  match s.phase with
  | .idle => True
  | .running .inputLatch => True
  | .running .pcLoad => s.InputLatched
  | .running .loop =>
    s.icount.toNat ≤ Config.instrPerFrame ∧ (s.icount = 0#17 → s.InputLatched ∧ s.pc = s.mem.pcVector)
  | .running .audio => s.icount.toNat = Config.instrPerFrame
  | .running .video => s.icount.toNat = Config.instrPerFrame ∧ s.AudioExtracted
  | .running .deliverAudio => s.icount.toNat = Config.instrPerFrame ∧ s.AudioExtracted ∧ s.VideoExtracted
  | .running .deliverVideo => s.icount.toNat = Config.instrPerFrame ∧ s.AudioExtracted ∧ s.VideoExtracted

/-- An output has the length of its kind (R24): 256 bytes of audio, 65,536 of video. -/
def Output.Sized : Output → Prop
  | .loaded => True
  | .romTooLarge => True
  | .audio f => f.length = Config.audioBytes
  | .video f => f.length = Config.videoBytes

/-- The invariant. The memory is canonical; `abase` has its low 8 and `vbase` its low 16 bits zero (R23); every frame held
or delivered has its length (R24); and the stage's own part holds. -/
structure State.Inv (s : State) : Prop where
  memWf : s.mem.wf = true
  abaseAligned : s.abase.extractLsb' 0 8 = 0#8
  vbaseAligned : s.vbase.extractLsb' 0 16 = 0#16
  audioSized : ∀ f, s.audio = some f → f.length = Config.audioBytes
  videoSized : ∀ f, s.video = some f → f.length = Config.videoBytes
  outSized : ∀ o ∈ s.out, o.Sized
  stage : s.StageInv

/-- `n` steps from a state, stopping at the first fault or refusal. It is the host interface's run of this machine
(`run_eq_runSteps` of Laws/Step.lean). -/
def runSteps : Nat → State → Result
  | 0, s => .next s
  | n + 1, s =>
    match step s with
    | .next t => runSteps n t
    | .fault r => .fault r
    | .refused r => .refused r

/-- The steps of one RUN from Idle back to Idle (R71): acceptance, latch, `pc` load, 65,536 instructions, the loop test
that fails, two extractions, two deliveries. -/
def frameSteps : Nat := Config.instrPerFrame + 8

/-- The port accesses of `n` steps, in order, up to the first step that answers no next state. -/
def portOfSteps : Nat → State → List PortAccess
  | 0, _ => []
  | n + 1, s => Port.ofStep s ++
    match step s with
    | .next t => portOfSteps n t
    | .fault _ => []
    | .refused _ => []

end Sys2Proof.Machine
end

