-- ==== Sys2Proof/Certificates/Slice0/Obligations.lean ====
section
/-! DEFINITION. The statements for the provers, from the spec's numbered rules. A record update `{ s with ... }` in a
conclusion says that every field not named in it is unchanged; `runSteps n s` is `n` steps from `s`. How a command
reaches the machine (`host`), where what it hands out is kept (`out`) and what counts as one step inside RUN are the
model's choices, log 1, log 2 and log 3: a statement that counts steps or reads `out` rests on them, in its step counts
and in the place of the outputs and in nothing else. -/

open Sys2Proof Sys2Proof.Machine

/-! Encoding. -/

/-- Decoder and encoder agree, both ways: the decoder reads from the nine encoded bytes of any well-formed instruction
that instruction, every operand at every value, and leaves whatever follows; and whatever the decoder reads is well formed
and encodes to the very bytes it was read from, so that no bit of the 72 is dropped (R50, R51, R52, R55). -/
def Obligations.DecodeAndEncodeAgree : Prop :=
  (∀ (i : Instr) (rest : List Byte), i.wellFormed = true → decode (encode i ++ rest) = .ok (i, rest)) ∧
  (∀ (bs : List Byte) (i : Instr) (rest : List Byte), decode bs = .ok (i, rest) →
    i.wellFormed = true ∧ encode i ++ rest = bs)

/-- Every nine bytes are a legal instruction, and the only thing the decoder rejects is fewer than nine (R52, R53, R55).
-/
def Obligations.EveryNineBytesAreAnInstruction : Prop :=
  ∀ bs : List Byte,
    (9 ≤ bs.length → ∃ i, decode bs = .ok (i, bs.drop 9) ∧ i.wellFormed = true) ∧
    (bs.length < 9 → decode bs = .error (.tooFewBytes bs.length))

/-- R50's table: byte offset by byte offset, which field bits the nine bytes carry. -/
def Obligations.EncodedBytesFollowTheFormatTable : Prop :=
  ∀ src dst next : Addr, encode (.cpj src dst next) =
    [src.extractLsb' 16 8, src.extractLsb' 8 8, src.extractLsb' 0 8,
     dst.extractLsb' 16 8, dst.extractLsb' 8 8, dst.extractLsb' 0 8,
     next.extractLsb' 16 8, next.extractLsb' 8 8, next.extractLsb' 0 8]

/-- R51: each field is an unsigned 24-bit address read big-endian from its three bytes, with nothing added to it; and in
the 72-bit word with the byte at `pc` most significant, `src = w[71:48]`, `dst = w[47:24]`, `next = w[23:0]`. -/
def Obligations.FieldsAreBigEndianAbsoluteAddresses : Prop :=
  (∀ (m : Memory) (pc : Addr), ∃ src dst next : Addr, fetchInstr m pc = .cpj src dst next ∧
    src.toNat = m.memRead pc.toNat 3 ∧ dst.toNat = m.memRead (pc.toNat + 3) 3 ∧
    next.toNat = m.memRead (pc.toNat + 6) 3) ∧
  (∀ w : BitVec 72, (wordBytes w)[0]? = some (w.extractLsb' 64 8) ∧
    decodeTableWord 72 w.toNat = some (.cpj (w.extractLsb' 48 24) (w.extractLsb' 24 24) (w.extractLsb' 0 24))) ∧
  (∀ i : Instr, decodeTableWord 72 (encodeWord i).toNat = some i)

/-- Words written out from the spec's encoding (E1, P6, R53 and S6), decoded. -/
def Obligations.SpecWordsDecodeToTheirInstructions : Prop :=
  decode [0x00#8, 0x01#8, 0x00#8, 0x00#8, 0x02#8, 0x00#8, 0x00#8, 0x00#8, 0x08#8] =
    .ok (.cpj 0x000100#24 0x000200#24 0x000008#24, []) ∧
  decode [0x00#8, 0x00#8, 0x11#8, 0x00#8, 0x00#8, 0x21#8, 0x00#8, 0x02#8, 0x08#8] =
    .ok (.cpj 0x000011#24 0x000021#24 0x000208#24, []) ∧
  decode [0x00#8, 0x00#8, 0x00#8, 0x00#8, 0x00#8, 0x00#8, 0x00#8, 0x00#8, 0x00#8] = .ok (.cpj 0#24 0#24 0#24, []) ∧
  decodeTableWord 72 0x000017000018123456 = some (.cpj 0x000017#24 0x000018#24 0x123456#24)

/-- R63's table: the instruction at the top of memory wraps byte by byte, into the control locations. -/
def Obligations.FetchAtTheTopOfMemoryWraps : Prop :=
  ∀ m : Memory,
    fetchInstr m 0xFFFFF7#24 = .cpj (be24 (m.read 0xFFFFF7#24) (m.read 0xFFFFF8#24) (m.read 0xFFFFF9#24))
      (be24 (m.read 0xFFFFFA#24) (m.read 0xFFFFFB#24) (m.read 0xFFFFFC#24))
      (be24 (m.read 0xFFFFFD#24) (m.read 0xFFFFFE#24) (m.read 0xFFFFFF#24)) ∧
    fetchInstr m 0xFFFFF8#24 = .cpj (be24 (m.read 0xFFFFF8#24) (m.read 0xFFFFF9#24) (m.read 0xFFFFFA#24))
      (be24 (m.read 0xFFFFFB#24) (m.read 0xFFFFFC#24) (m.read 0xFFFFFD#24))
      (be24 (m.read 0xFFFFFE#24) (m.read 0xFFFFFF#24) (m.read 0#24)) ∧
    fetchInstr m 0xFFFFFA#24 = .cpj (be24 (m.read 0xFFFFFA#24) (m.read 0xFFFFFB#24) (m.read 0xFFFFFC#24))
      (be24 (m.read 0xFFFFFD#24) (m.read 0xFFFFFE#24) (m.read 0xFFFFFF#24))
      (be24 (m.read 0#24) (m.read 1#24) (m.read 2#24)) ∧
    fetchInstr m 0xFFFFFD#24 = .cpj (be24 (m.read 0xFFFFFD#24) (m.read 0xFFFFFE#24) (m.read 0xFFFFFF#24))
      (be24 (m.read 0#24) (m.read 1#24) (m.read 2#24)) (be24 (m.read 3#24) (m.read 4#24) (m.read 5#24)) ∧
    fetchInstr m 0xFFFFFE#24 = .cpj (be24 (m.read 0xFFFFFE#24) (m.read 0xFFFFFF#24) (m.read 0#24))
      (be24 (m.read 1#24) (m.read 2#24) (m.read 3#24)) (be24 (m.read 4#24) (m.read 5#24) (m.read 6#24)) ∧
    fetchInstr m 0xFFFFFF#24 = .cpj (be24 (m.read 0xFFFFFF#24) (m.read 0#24) (m.read 1#24))
      (be24 (m.read 2#24) (m.read 3#24) (m.read 4#24)) (be24 (m.read 5#24) (m.read 6#24) (m.read 7#24))

/-! Memory. -/

/-- R32: `MemRead` of one, two and three bytes, big-endian, each byte address masked, unsigned. -/
def Obligations.MemReadIsBigEndianAndMasked : Prop :=
  ∀ (m : Memory) (addr : Nat),
    m.memRead addr 1 = (m.read (maskAddr addr)).toNat ∧
    m.memRead addr 2 = (m.read (maskAddr addr) ++ m.read (maskAddr (addr + 1)) : BitVec 16).toNat ∧
    m.memRead addr 3 =
      (m.read (maskAddr addr) ++ m.read (maskAddr (addr + 1)) ++ m.read (maskAddr (addr + 2)) : BitVec 24).toNat ∧
    m.memRead addr 1 ≤ 0xFF ∧ m.memRead addr 2 ≤ 0xFFFF ∧ m.memRead addr 3 ≤ 0xFFFFFF

/-- R34: `MemWrite` puts byte `v[8*(n-i)-1 : 8*(n-i-1)]` at `(addr + i) & M24` for every `i` below `n`, and every other
cell reads as before. For every `n` up to the length of memory, where the byte addresses are distinct. -/
def Obligations.MemWriteIsBigEndianAndMasked : Prop :=
  ∀ (m : Memory) (addr n v : Nat), m.wf = true → n ≤ 2 ^ 24 →
    (m.memWrite addr n v).wf = true ∧
    (∀ i, i < n → (m.memWrite addr n v).read (maskAddr (addr + i)) = BitVec.ofNat 8 (v / 2 ^ (8 * (n - i - 1)))) ∧
    (∀ a, (∀ i, i < n → a ≠ maskAddr (addr + i)) → (m.memWrite addr n v).read a = m.read a)

/-- R33: every address is reduced by `& 0xFFFFFF`, so 2^24 more makes no difference to any access. -/
def Obligations.EveryAccessIsMasked : Prop :=
  (∀ a : Nat, (maskAddr a).toNat = a &&& 0xFFFFFF) ∧
  (∀ (m : Memory) (a n : Nat), m.memRead (a + 2 ^ 24) n = m.memRead a n) ∧
  (∀ (m : Memory) (a n : Nat), m.copyRange (a + 2 ^ 24) n = m.copyRange a n) ∧
  (∀ (m : Memory) (a n v : Nat), m.memWrite (a + 2 ^ 24) n v = m.memWrite a n v)

/-- After any sequence of writes each cell reads as the latest write to it, or as it did before them all (R38, R42). -/
def Obligations.ReadReturnsTheLatestWrite : Prop :=
  ∀ (m : Memory) (ws : List (Addr × Byte)) (a : Addr), m.wf = true →
    (ws.foldl (fun m w => m.write w.1 w.2) m).read a =
      ((ws.reverse.find? (fun w => w.1 = a)).map (·.2)).getD (m.read a)

/-- The two output pages lie inside memory, so the block reads never wrap (R18, R19, R35, R66). -/
def Obligations.OutputPagesLieInsideMemory : Prop :=
  ∀ m : Memory,
    m.audioBase.toNat = (m.read 6#24).toNat * 65536 + (m.read 7#24).toNat * 256 ∧
    m.videoBase.toNat = (m.read 5#24).toNat * 65536 ∧
    (∀ i, i < 256 → m.audioBase.toNat + i ≤ 0xFFFFFF) ∧
    (∀ i, i < 65536 → m.videoBase.toNat + i ≤ 0xFFFFFF)

/-! The instruction. -/

/-- A step runs the decoded instruction: when the loop's count is not used up and the nine bytes at `pc` decode to `i`,
step is exec of `i` with the frame's count advanced around it (R60, R71, R74). -/
def Obligations.StepRunsTheDecodedInstruction : Prop :=
  ∀ (s : State) (i : Instr) (rest : List Byte), s.phase = .running .loop → s.icount.toNat < 65536 →
    decode (s.mem.instrBytesAt s.pc) = .ok (i, rest) → i.wellFormed = true →
    step s = match exec i s with
      | .next t => .next { t with icount := t.icount + 1#17 }
      | .fault r => .fault r
      | .refused r => .refused r

/-- The model's own loading function (log 12): `withFetchWord` makes the very next step run the instruction that
`decodeTableWord` reads, for every word of the table's 72 bits or fewer. -/
def Obligations.WithFetchWordRunsThatWord : Prop :=
  ∀ (s : State) (nbits w : Nat), s.mem.wf = true → nbits ≤ 72 →
    ∃ i t, decodeTableWord nbits w = some i ∧ exec i (s.withFetchWord nbits w) = .next t ∧
      step (s.withFetchWord nbits w) = .next { t with icount := t.icount + 1#17 } ∧
      (s.withFetchWord nbits w).pc = s.pc

/-- R60: `src` and `dst` are read from the nine bytes at `pc`; `CPJ` answers a next state in which the byte at `src` is at
`dst`, every other byte of memory is unchanged, `pc` is the three `next` bytes as they stand after the store at the old
`pc`, and nothing else of the state differs. For every state whose memory is canonical and every operand. -/
def Obligations.CpjCopiesOneByteThenJumps : Prop :=
  (∀ (m : Memory) (pc : Addr), fetchInstr m pc =
    .cpj (be24 (m.read pc) (m.read (pc + 1#24)) (m.read (pc + 2#24)))
      (be24 (m.read (pc + 3#24)) (m.read (pc + 4#24)) (m.read (pc + 5#24)))
      (be24 (m.read (pc + 6#24)) (m.read (pc + 7#24)) (m.read (pc + 8#24)))) ∧
  (∀ (s : State) (src dst next : Addr), s.mem.wf = true →
    ∃ m : Memory,
      exec (.cpj src dst next) s = .next
        { s with mem := m, pc := be24 (m.read (s.pc + 6#24)) (m.read (s.pc + 7#24)) (m.read (s.pc + 8#24)) } ∧
      m.wf = true ∧ m.read dst = s.mem.read src ∧ ∀ a, a ≠ dst → m.read a = s.mem.read a)

/-- R62's table, for the instruction at `pc` and whatever byte of itself it stores into, or none: the copied byte is the
one `src` named before the store; a store into its own `next` bytes changes this jump; a store into its own `src` or `dst`
bytes changes only what the next execution of the location reads. -/
def Obligations.CpjIntoItsOwnBytes : Prop :=
  ∀ (s : State) (src dst next : Addr), s.mem.wf = true → fetchInstr s.mem s.pc = .cpj src dst next →
    let v := s.mem.read src
    let patched : Nat → Byte → Byte := fun k b => if dst = s.pc + BitVec.ofNat 24 k then v else b
    ∃ t, exec (.cpj src dst next) s = .next t ∧ t.mem.read dst = v ∧
      t.pc = be24 (patched 6 (next.extractLsb' 16 8)) (patched 7 (next.extractLsb' 8 8))
        (patched 8 (next.extractLsb' 0 8)) ∧
      fetchInstr t.mem s.pc = .cpj
        (be24 (patched 0 (src.extractLsb' 16 8)) (patched 1 (src.extractLsb' 8 8)) (patched 2 (src.extractLsb' 0 8)))
        (be24 (patched 3 (dst.extractLsb' 16 8)) (patched 4 (dst.extractLsb' 8 8)) (patched 5 (dst.extractLsb' 0 8)))
        t.pc

/-- R60's corner `src = dst`: memory is unchanged as data and the jump is the one already encoded, wherever the byte is.
-/
def Obligations.CpjOntoItselfOnlyJumps : Prop :=
  ∀ (s : State) (a next : Addr), s.mem.wf = true →
    exec (.cpj a a next) s = .next { s with pc := s.mem.nextField s.pc }

/-- R68 spin: an instruction `CPJ a, a, L` at `L` only uses up the count. -/
def Obligations.SpinOnlyUsesUpTheCount : Prop :=
  ∀ (s : State) (a : Addr), s.mem.wf = true → s.phase = .running .loop → s.icount.toNat < 65536 →
    fetchInstr s.mem s.pc = .cpj a a s.pc → step s = .next { s with icount := s.icount + 1#17 }

/-- R68 computed jump: `L: CPJ v, L + 8, T` jumps to `T[23:8] ++ M[v]`; with `dst = L + 7` the middle byte is replaced. -/
def Obligations.ComputedJumpReplacesOneByteOfTheTarget : Prop :=
  ∀ (s : State) (v target : Addr), s.mem.wf = true →
    (fetchInstr s.mem s.pc = .cpj v (s.pc + 8#24) target → ∃ t, exec (.cpj v (s.pc + 8#24) target) s = .next t ∧
      t.pc = be24 (target.extractLsb' 16 8) (target.extractLsb' 8 8) (s.mem.read v)) ∧
    (fetchInstr s.mem s.pc = .cpj v (s.pc + 7#24) target → ∃ t, exec (.cpj v (s.pc + 7#24) target) s = .next t ∧
      t.pc = be24 (target.extractLsb' 16 8) (s.mem.read v) (target.extractLsb' 0 8))

/-- R68 table lookup: `L0: CPJ v, L1 + 2, L1` then `L1: CPJ T, r, L2`, `T` a multiple of 256, copies `M[T + M[v]]` to `r`
in two steps. The patched byte is to lie outside the first instruction's `next` field and is not the table's entry itself
(both would be the program's own doing, R62). -/
def Obligations.TableLookupCopiesTheEntry : Prop :=
  ∀ (s : State) (v l1 table r l2 : Addr), s.mem.wf = true → s.phase = .running .loop → s.icount.toNat + 1 < 65536 →
    fetchInstr s.mem s.pc = .cpj v (l1 + 2#24) l1 → fetchInstr s.mem l1 = .cpj table r l2 →
    table.extractLsb' 0 8 = 0#8 →
    l1 + 2#24 ≠ s.pc + 6#24 → l1 + 2#24 ≠ s.pc + 7#24 → l1 + 2#24 ≠ s.pc + 8#24 →
    l1 + 2#24 ≠ table + BitVec.setWidth 24 (s.mem.read v) →
    ∃ t, runSteps 2 s = .next t ∧
      t.mem.read r = s.mem.read (table + BitVec.setWidth 24 (s.mem.read v))

/-- No instruction faults or is refused, in any state (R90), and no step does. The second clause is the model's where the
step is no instruction: an Idle step without a command goes on (log 1), and RomTooLarge is LOAD's reply and no refusal of
the step (R93; log 8, log 19). -/
def Obligations.NothingFaults : Prop :=
  (∀ (i : Instr) (s : State), ∃ t, exec i s = .next t) ∧ ∀ s : State, s.AnswersNext

/-! Reset, LOAD and the host. -/

/-- R100: after reset every byte of memory is zero and the sequencer is Idle. -/
def Obligations.ResetIsZeroedAndIdle : Prop :=
  (∀ a, State.reset.mem.read a = 0x00#8) ∧ State.reset.phase = .idle

/-- R26's unobservable reset values (the spec's own decisions D2, D3, D5, D15; log 5), no frame, and the model's own
fields empty (log 1, log 2). -/
def Obligations.ResetLatchValues : Prop :=
  State.reset.pc = 0#24 ∧ State.reset.icount = 0#17 ∧ State.reset.inlatch = 0#16 ∧ State.reset.abase = 0#24 ∧
  State.reset.vbase = 0#24 ∧ State.reset.audio = none ∧ State.reset.video = none ∧
  State.reset.host = [] ∧ State.reset.out = []

/-- Reset commanded in Idle constructs the machine anew (R81, R100, D8; the model's command, log 9): every field is the
reset value but the host's own record and remaining commands. -/
def Obligations.ResetCommandConstructsAnew : Prop :=
  ∀ (s : State) (rest : List HostCmd), s.phase = .idle → s.host = .reset :: rest →
    step s = .next { State.reset with host := rest, out := s.out }

/-- The model's own idle step (log 1): with no command from the host an Idle core stays as it is. -/
def Obligations.IdleWithoutACommandStays : Prop :=
  ∀ s : State, s.phase = .idle → s.host = [] → step s = .next s

/-- R79: LOAD of at most 2^24 bytes sets `M[i] = bytes[i]` for `i` below the length and zero everywhere else, whatever
memory held, and stays Idle (the command is the head of `host`, its status goes to `out`: log 1, log 2). -/
def Obligations.LoadZeroFillsThenCopiesTheRom : Prop :=
  ∀ (s : State) (rom : List Byte) (rest : List HostCmd), s.phase = .idle → s.host = .load rom :: rest →
    rom.length ≤ 2 ^ 24 →
    ∃ m : Memory, step s = .next { s with mem := m, host := rest, out := s.out ++ [.loaded] } ∧ m.wf = true ∧
      (∀ a : Addr, ∀ h : a.toNat < rom.length, m.read a = rom[a.toNat]) ∧
      (∀ a : Addr, rom.length ≤ a.toNat → m.read a = 0x00#8)

/-- R80: LOAD of more than 2^24 bytes answers `RomTooLarge` and changes nothing else; the machine stays Idle
(the status goes to `out`: log 2; the check first: D7, log 8). -/
def Obligations.TooLargeRomChangesNothing : Prop :=
  ∀ (s : State) (rom : List Byte) (rest : List HostCmd), s.phase = .idle → s.host = .load rom :: rest →
    2 ^ 24 < rom.length → step s = .next { s with host := rest, out := s.out ++ [.romTooLarge] }

/-- R86, D6: while Running no command is taken, and what the host has waiting makes no difference to the step. -/
def Obligations.RunningTakesNoCommand : Prop :=
  ∀ (s : State) (cs : List HostCmd), s.phase ≠ .idle →
    ∃ t, step s = .next t ∧ t.host = s.host ∧ step { s with host := cs } = .next { t with host := cs }

/-- R70: Idle is left only by acceptance of a RUN; Running is left only by delivery of the video frame, and it is always
left there (the stages of Running are the model's, log 3). -/
def Obligations.PhaseChangesOnlyByRunAndVideoDelivery : Prop :=
  ∀ s t : State, step s = .next t →
    (s.phase = .idle → (t.phase ≠ .idle ↔ ∃ input rest, s.host = .run input :: rest)) ∧
    (s.phase ≠ .idle → (t.phase = .idle ↔ s.phase = .running .deliverVideo))

/-! RUN, step by step. -/

/-- R72: on every RUN, two steps after its acceptance is due and before `pc` is loaded or any instruction runs, `M[0]`
is the high byte of the argument and `M[1]` the low byte, and every other byte is unchanged (step counts: log 3;
`inlatch`: D5). -/
def Obligations.RunLatchesItsArgumentFirst : Prop :=
  ∀ (s : State) (input : InputWord) (rest : List HostCmd), s.mem.wf = true → s.phase = .idle →
    s.host = .run input :: rest →
    ∃ m : Memory, runSteps 2 s =
        .next { s with mem := m, inlatch := input, host := rest, phase := .running .pcLoad } ∧
      m.wf = true ∧ m.read 0#24 = input.extractLsb' 8 8 ∧ m.read 1#24 = input.extractLsb' 0 8 ∧
      ∀ a : Addr, a ≠ 0#24 → a ≠ 1#24 → m.read a = s.mem.read a

/-- R73: the third step of every RUN loads `pc` with `M[2] ++ M[3] ++ M[4]` as they stood before the RUN, whatever `pc`
held and whatever the input is (step counts: log 3). -/
def Obligations.RunStartsAtTheProgramCounterVector : Prop :=
  ∀ (s : State) (input : InputWord) (rest : List HostCmd), s.mem.wf = true → s.phase = .idle →
    s.host = .run input :: rest →
    ∃ t, runSteps 3 s = .next t ∧ t.phase = .running .loop ∧ t.icount = 0#17 ∧
      t.pc = be24 (s.mem.read 2#24) (s.mem.read 3#24) (s.mem.read 4#24)

/-- R74: from the start of the loop exactly 65,536 instructions are executed, one a step, whatever they are: after `n`
of them memory and `pc` are those of `n` copies and jumps, and the step after the last leaves the loop with both
unchanged (the step that tests and leaves is the model's, log 3; `icount` is D3's). -/
def Obligations.LoopExecutesExactly65536Instructions : Prop :=
  ∀ s : State, s.phase = .running .loop → s.icount = 0#17 →
    (∀ n, n ≤ 65536 → runSteps n s = .next
      { s with mem := (instrsOn n (s.mem, s.pc)).1, pc := (instrsOn n (s.mem, s.pc)).2, icount := BitVec.ofNat 17 n }) ∧
    runSteps 65537 s = .next
      { s with mem := (instrsOn 65536 (s.mem, s.pc)).1, pc := (instrsOn 65536 (s.mem, s.pc)).2, icount := 65536#17,
               phase := .running .audio }

/-- R75: `abase` becomes `M[6] ++ M[7] ++ 0x00`, and byte `i` of the 256-byte audio frame is `M[M[6] ++ M[7] ++ i]`
(the latch `abase` is D15's; the stage is log 3's). -/
def Obligations.AudioFrameIsTheSelectedPage : Prop :=
  ∀ s : State, s.phase = .running .audio →
    ∃ frame : List Byte,
      step s = .next { s with abase := be24 (s.mem.read 6#24) (s.mem.read 7#24) 0#8, audio := some frame,
                              phase := .running .video } ∧
      frame.length = 256 ∧
      ∀ i : Byte, frame[i.toNat]? = some (s.mem.read (be24 (s.mem.read 6#24) (s.mem.read 7#24) i))

/-- R76: `vbase` becomes `M[5] ++ 0x0000`, the video frame has 65,536 bytes, byte `i` of it is `M[M[5] ++ i[15:8] ++
i[7:0]]`, and the pixel in row `r`, column `c` is `M[M[5] ++ r ++ c]` (the latch `vbase` is D15's; the stage is log
3's). -/
def Obligations.VideoFrameIsTheSelectedPage : Prop :=
  ∀ s : State, s.phase = .running .video →
    ∃ frame : List Byte,
      step s = .next { s with vbase := be24 (s.mem.read 5#24) 0#8 0#8, video := some frame,
                              phase := .running .deliverAudio } ∧
      frame.length = 65536 ∧
      (∀ i : BitVec 16, frame[i.toNat]? =
        some (s.mem.read (be24 (s.mem.read 5#24) (i.extractLsb' 8 8) (i.extractLsb' 0 8)))) ∧
      (∀ r c : Byte, FramePort.pixel frame r c = some (s.mem.read (be24 (s.mem.read 5#24) r c)))

/-- R77: both frames are read from the one memory the loop leaves, the selectors and the pages alike, and extraction and
delivery change no byte of it (`out`: log 2; four steps: log 3). -/
def Obligations.FramesAreOneSnapshotOfTheFinalMemory : Prop :=
  ∀ s : State, s.phase = .running .audio →
    ∃ t, runSteps 4 s = .next t ∧ t.mem = s.mem ∧ t.pc = s.pc ∧ t.phase = .idle ∧
      t.out = s.out ++ [.audio (s.mem.copyRange s.mem.audioBase.toNat 256),
                        .video (s.mem.copyRange s.mem.videoBase.toNat 65536)]

/-- R78: the audio frame is delivered, then the video frame, once each, then the machine is Idle; memory, PCV among it,
and `pc` are not touched (`out`: log 2; sinks that accept at once: D9, log 10). -/
def Obligations.AudioIsDeliveredBeforeVideo : Prop :=
  ∀ (s : State) (a v : List Byte), s.phase = .running .deliverAudio → s.audio = some a → s.video = some v →
    runSteps 2 s = .next { s with phase := .idle, out := s.out ++ [.audio a, .video v] }

/-! Whole frames. -/

/-- R71, refinement: from any Idle state with a RUN waiting, the step machine comes back to Idle after exactly
`frameSteps` steps with the memory, `pc` and two frames that the frame function gives, having delivered audio and then
video once each and taken nothing else from the host. The latches keep their last values (D2, D3, D5, D15; log 6). -/
def Obligations.RunComputesTheFrameFunction : Prop :=
  ∀ (s : State) (input : InputWord) (rest : List HostCmd), s.phase = .idle → s.host = .run input :: rest →
    runSteps frameSteps s = .next
      { mem := (runFrame s.mem input).mem,
        pc := (runFrame s.mem input).pc,
        icount := 65536#17,
        phase := .idle,
        inlatch := input,
        abase := (runFrame s.mem input).mem.audioBase,
        vbase := (runFrame s.mem input).mem.videoBase,
        audio := some (runFrame s.mem input).audio,
        video := some (runFrame s.mem input).video,
        host := rest,
        out := s.out ++ [.audio (runFrame s.mem input).audio, .video (runFrame s.mem input).video] }

/-- R84: equal memory and equal input give equal memory, audio and video, whatever `pc`, `icount`, the latches, the frames
held, the host's later commands and the earlier outputs are (step count: log 3; `out`: log 2). -/
def Obligations.FrameDependsOnMemoryAndInputOnly : Prop :=
  ∀ (s s' : State) (input : InputWord) (rest rest' : List HostCmd),
    s.phase = .idle → s'.phase = .idle → s.host = .run input :: rest → s'.host = .run input :: rest' →
    s.mem = s'.mem →
    ∃ t t' a v, runSteps frameSteps s = .next t ∧ runSteps frameSteps s' = .next t' ∧
      t.mem = t'.mem ∧ t.out = s.out ++ [.audio a, .video v] ∧ t'.out = s'.out ++ [.audio a, .video v]

/-- A session of RUNs (R27, R85, R105): memory is carried from frame to frame and nothing else is, every frame starting
from PCV; each RUN adds its own two frames to what was delivered. -/
def Obligations.SessionCarriesOnlyMemoryBetweenFrames : Prop :=
  ∀ (s : State) (inputs : List InputWord) (rest : List HostCmd), s.phase = .idle →
    s.host = inputs.map .run ++ rest →
    ∃ t, runSteps (inputs.length * frameSteps) s = .next t ∧ t.phase = .idle ∧ t.host = rest ∧
      t.mem = (session inputs s.mem).1 ∧ t.out = s.out ++ (session inputs s.mem).2

/-- R112: a RUN over zeroed memory. The first instruction is `CPJ currentInput ++ 0x00, 0, 0` at 0, the second has
`0x00 ++ currentInput[7:0] ++ 0x00` for its source; at the end of the frame `M[1]` is the low input byte and all else is
zero, and so are both frames. -/
def Obligations.RunOnZeroedMemory : Prop :=
  ∀ (s : State) (input : InputWord) (rest : List HostCmd), s.mem = Memory.zeroed → s.phase = .idle →
    s.host = .run input :: rest →
    (∃ t, runSteps 3 s = .next t ∧ t.pc = 0#24 ∧
      fetchInstr t.mem t.pc = .cpj (be24 (input.extractLsb' 8 8) (input.extractLsb' 0 8) 0#8) 0#24 0#24) ∧
    (∃ t, runSteps 4 s = .next t ∧ t.pc = 0#24 ∧
      fetchInstr t.mem t.pc = .cpj (be24 0#8 (input.extractLsb' 0 8) 0#8) 0#24 0#24) ∧
    (∃ t a v, runSteps frameSteps s = .next t ∧
      (∀ b : Addr, t.mem.read b = if b = 1#24 then input.extractLsb' 0 8 else 0#8) ∧
      t.out = s.out ++ [.audio a, .video v] ∧ a.length = 256 ∧ v.length = 65536 ∧
      (∀ i, i < 256 → a[i]? = some (if i = 1 then input.extractLsb' 0 8 else 0#8)) ∧
      (∀ i, i < 65536 → v[i]? = some (if i = 1 then input.extractLsb' 0 8 else 0#8)))

/-! Invariants and whole-machine rules. -/

/-- The invariant holds after reset. -/
def Obligations.InvariantHoldsAtReset : Prop := State.reset.Inv

/-- Every step keeps the invariant, from every state that has it: memory stays canonical (R10), the page bases stay
aligned (R23), frames keep their lengths (R24), the input is latched and `pc` is PCV when the loop begins (R72, R73), no
instruction runs past the 65,536th (R74), and the frames on their way out are one snapshot (R77). -/
def Obligations.EveryStepKeepsTheInvariant : Prop :=
  ∀ s t : State, s.Inv → step s = .next t → t.Inv

/-- Who writes memory (R34, R45): a byte differs after a step only if the step is an instruction and the byte is its
destination, or the input latch and the byte is 0 or 1, or a LOAD that succeeds, or a reset. The hardware itself never
writes PCV, VPAGE or APAGE (R17, R18, R19). -/
def Obligations.OnlyStoresLatchLoadAndResetWriteMemory : Prop :=
  ∀ (s t : State) (a : Addr), s.mem.wf = true → step s = .next t → t.mem.read a ≠ s.mem.read a →
    (s.phase = .running .loop ∧ s.icount.toNat < 65536 ∧ a = s.mem.dstField s.pc) ∨
    (s.phase = .running .inputLatch ∧ (a = 0#24 ∨ a = 1#24)) ∨
    (s.phase = .idle ∧ ∃ rom rest, s.host = .load rom :: rest ∧ rom.length ≤ 2 ^ 24) ∨
    (s.phase = .idle ∧ ∃ rest, s.host = .reset :: rest)

/-- Where each latch and output changes (R12, R13, R21, R23, R24): outside a reset, `pc` only by an instruction or the
load from PCV, `icount` only there too, `inlatch` only when a RUN is accepted, `abase` and the audio frame only in step
4a, `vbase` and the video frame only in step 4b; and what was handed to the host is never taken back, reset or not. -/
def Obligations.LatchesChangeOnlyInTheirOwnSteps : Prop :=
  ∀ s t : State, step s = .next t →
    (∃ more, t.out = s.out ++ more) ∧
    ((∃ rest, s.phase = .idle ∧ s.host = .reset :: rest) ∨
      ((t.pc ≠ s.pc ∨ t.icount ≠ s.icount →
          s.phase = .running .pcLoad ∨ s.phase = .running .loop ∧ s.icount.toNat < 65536) ∧
        (t.inlatch ≠ s.inlatch → s.phase = .idle ∧ ∃ input rest, s.host = .run input :: rest) ∧
        (t.abase ≠ s.abase ∨ t.audio ≠ s.audio → s.phase = .running .audio) ∧
        (t.vbase ≠ s.vbase ∨ t.video ≠ s.video → s.phase = .running .video)))

/-! The memory port. -/

/-- The accesses of R40, served in order one byte at a time on a plain RAM, are the step: every read returns what the
port says it returns, the latest earlier write among them, and the memory left is the step's (R37, R38, R40, R42). For
every step but a reset, which zeroes memory as construction and is no request on the port (D8; log 7, log 9); and in
Idle there is no requester but LOAD (R40). -/
def Obligations.PortAccessesInOrderAreTheStep : Prop :=
  ∀ s t : State, s.mem.wf = true → step s = .next t →
    (¬ (s.phase = .idle ∧ ∃ rest, s.host = .reset :: rest) → Port.serve (Port.ofStep s) s.mem = some t.mem) ∧
    (∀ rest, s.phase = .idle → s.host = .reset :: rest → Port.ofStep s = [] ∧ t.mem = Memory.zeroed) ∧
    (s.phase = .idle → ∀ p ∈ Port.ofStep s, p.requester = .load)

/-- R41: one RUN makes exactly 65,538 byte writes and 721,158 byte reads on the port. -/
def Obligations.OneRunMakesTheCountedAccesses : Prop :=
  ∀ (s : State) (input : InputWord) (rest : List HostCmd), s.phase = .idle → s.host = .run input :: rest →
    Port.count .write (portOfSteps frameSteps s) = 65538 ∧ Port.count .read (portOfSteps frameSteps s) = 721158

/-- R87: one RUN performs exactly 65,536 copies, counted as instruction stores, whatever memory holds; the two byte writes
of the input latch are in addition. -/
def Obligations.OneRunPerforms65536Copies : Prop :=
  ∀ (s : State) (input : InputWord) (rest : List HostCmd), s.phase = .idle → s.host = .run input :: rest →
    (portOfSteps frameSteps s).countP (fun p => p.requester = .data ∧ p.kind = .write) = 65536 ∧
    (portOfSteps frameSteps s).countP (fun p => p.requester = .inputLatch ∧ p.kind = .write) = 2

/-! The formats at the boundary, and the notation. -/

/-- R16's table under the reference mapping: once the input of the active keys is latched, key `k` is bit `k mod 8` of
`M[1]` for keys 0 to 7 and of `M[0]` for keys 8 to 15 (the bit order of the mapping is the source's reference, D13). -/
def Obligations.ReferenceKeysSetTheirInputBits : Prop :=
  ∀ (m : Memory) (active : List (Fin 16)) (k : Fin 16), m.wf = true →
    ((m.memWrite Config.inAddr 2 (FramePort.inputWord FramePort.referenceKeymap active).toNat).read
      (if k.val < 8 then 1#24 else 0#24)).getLsbD (k.val % 8) = decide (k ∈ active)

/-- R83's colour cube: every channel triple has its index below 216 and is read back from it, and the other pixel values
are the sentinel. -/
def Obligations.PixelValuesIndexTheColourCube : Prop :=
  (∀ r g b : Fin 6, FramePort.cubeIndex r g b < 216 ∧
    FramePort.colourOf (BitVec.ofNat 8 (FramePort.cubeIndex r g b)) = .cube r g b) ∧
  (∀ v : Byte, 216 ≤ v.toNat → FramePort.colourOf v = .sentinel)

/-- R57: `SPIN` at a label at any address with room for it, assembled and loaded, is fetched there as the self-loop
`CPJ 0x000000, 0x000000, L` (the notation is the spec's own, D10). With no label the image is the same, which is the model's
choice (log 15). -/
def Obligations.AssembledSpinIsASelfLoop : Prop :=
  ∀ a : Addr, a.toNat + 9 ≤ 2 ^ 24 →
    ∃ rom, (∀ l, Asm.assemble [.org a, .mark l, .spin] = some rom) ∧ Asm.assemble [.org a, .spin] = some rom ∧
      rom.length = a.toNat + 9 ∧
      fetchInstr (Memory.ofRom rom) a = .cpj 0#24 0#24 a
end

