-- ==== Sys2Proof/Laws/Decode.lean ====
section
/-! SUPPORT. Byte order and the decoder: an address as three bytes, both ways. -/

namespace Sys2Proof

/-- Two bytes, most significant first, as a number. -/
theorem append_bytes_toNat (b0 b1 : Byte) : (b0 ++ b1 : BitVec 16).toNat = b0.toNat * 256 + b1.toNat := by
  have h : (b0 ++ b1 : BitVec 16).toNat = b0.toNat <<< 8 ||| b1.toNat := BitVec.toNat_append ..
  rw [h, ← Nat.shiftLeft_add_eq_or_of_lt b1.isLt, Nat.shiftLeft_eq]

/-- Three bytes, most significant first, as a number. -/
theorem be24_toNat (b0 b1 b2 : Byte) : (be24 b0 b1 b2).toNat = b0.toNat * 65536 + b1.toNat * 256 + b2.toNat := by
  have h : (be24 b0 b1 b2).toNat = (b0 ++ b1 : BitVec 16).toNat <<< 8 ||| b2.toNat := BitVec.toNat_append ..
  rw [h, ← Nat.shiftLeft_add_eq_or_of_lt b2.isLt, Nat.shiftLeft_eq, append_bytes_toNat]
  omega

theorem bytes24_toNat (a : Addr) :
    (a.extractLsb' 16 8).toNat = a.toNat / 65536 ∧ (a.extractLsb' 8 8).toNat = a.toNat / 256 % 256 ∧
      (a.extractLsb' 0 8).toNat = a.toNat % 256 := by
  have := a.isLt
  refine ⟨?_, ?_, ?_⟩ <;> simp only [BitVec.extractLsb'_toNat, Nat.shiftRight_eq_div_pow] <;> omega

/-- The three bytes of an address put together are the address. -/
@[simp] theorem be24_bytes (a : Addr) : be24 (a.extractLsb' 16 8) (a.extractLsb' 8 8) (a.extractLsb' 0 8) = a := by
  obtain ⟨h0, h1, h2⟩ := bytes24_toNat a
  have := a.isLt
  apply BitVec.eq_of_toNat_eq
  rw [be24_toNat, h0, h1, h2]
  omega

/-- The high, middle and low byte of three bytes put together. -/
@[simp] theorem be24_hi (b0 b1 b2 : Byte) : (be24 b0 b1 b2).extractLsb' 16 8 = b0 := by
  apply BitVec.eq_of_toNat_eq
  rw [(bytes24_toNat _).1, be24_toNat]
  have := b0.isLt; have := b1.isLt; have := b2.isLt
  omega

@[simp] theorem be24_mid (b0 b1 b2 : Byte) : (be24 b0 b1 b2).extractLsb' 8 8 = b1 := by
  apply BitVec.eq_of_toNat_eq
  rw [(bytes24_toNat _).2.1, be24_toNat]
  have := b0.isLt; have := b1.isLt; have := b2.isLt
  omega

@[simp] theorem be24_lo (b0 b1 b2 : Byte) : (be24 b0 b1 b2).extractLsb' 0 8 = b2 := by
  apply BitVec.eq_of_toNat_eq
  rw [(bytes24_toNat _).2.2, be24_toNat]
  have := b0.isLt; have := b1.isLt; have := b2.isLt
  omega

/-- Equal addresses have equal bytes. -/
theorem be24_inj {b0 b1 b2 c0 c1 c2 : Byte} : be24 b0 b1 b2 = be24 c0 c1 c2 ↔ b0 = c0 ∧ b1 = c1 ∧ b2 = c2 := by
  constructor
  · intro h
    exact ⟨by simpa using congrArg (·.extractLsb' 16 8) h, by simpa using congrArg (·.extractLsb' 8 8) h,
      by simpa using congrArg (·.extractLsb' 0 8) h⟩
  · rintro ⟨rfl, rfl, rfl⟩; rfl

end Sys2Proof
end

