-- ==== Sys2Proof/Laws/Memory.lean ====
section
/-! SUPPORT. The memory image: read after write, the canonical form and that every operation keeps it, equal reads give
equal memories, and one lemma for each primitive. -/

namespace Sys2Proof.Machine

/-! The mask. -/

/-- The mask is `& 0xFFFFFF` (R33). -/
theorem maskAddr_toNat (a : Nat) : (maskAddr a).toNat = a % 2 ^ 24 := by simp [maskAddr]

@[simp] theorem maskAddr_toNat_self (a : Addr) : maskAddr a.toNat = a := by simp [maskAddr]

theorem maskAddr_add (a : Addr) (k : Nat) : maskAddr (a.toNat + k) = a + BitVec.ofNat 24 k := by
  apply BitVec.eq_of_toNat_eq
  simp [maskAddr, BitVec.toNat_add]

/-- Masking before an offset is added changes nothing (C6). -/
theorem maskAddr_mask_add (a k : Nat) : maskAddr ((maskAddr a).toNat + k) = maskAddr (a + k) := by
  apply BitVec.eq_of_toNat_eq
  simp [maskAddr]

theorem maskAddr_wrap (a : Nat) : maskAddr (a + 2 ^ 24) = maskAddr a := by
  apply BitVec.eq_of_toNat_eq
  simp [maskAddr]

theorem maskAddr_inj {a b : Nat} (ha : a < 2 ^ 24) (hb : b < 2 ^ 24) : maskAddr a = maskAddr b ↔ a = b := by
  constructor
  · intro h
    have := congrArg BitVec.toNat h
    rwa [maskAddr_toNat, maskAddr_toNat, Nat.mod_eq_of_lt ha, Nat.mod_eq_of_lt hb] at this
  · rintro rfl; rfl

namespace Memory

/-! The canonical form. -/

@[simp] theorem wfFrom_nil (lo : Nat) : wfFrom lo [] = true := rfl

theorem wfFrom_cons {lo k : Nat} {v : Byte} {m : Memory} :
    wfFrom lo ((k, v) :: m) = true ↔ lo ≤ k ∧ k < 2 ^ 24 ∧ v ≠ unlisted ∧ wfFrom (k + 1) m = true := by
  simp only [wfFrom, Bool.and_eq_true, decide_eq_true_eq]
  tauto

theorem wfFrom_mono {lo lo' : Nat} {m : Memory} (h : wfFrom lo m = true) (hle : lo' ≤ lo) : wfFrom lo' m = true := by
  cases m with
  | nil => rfl
  | cons c m =>
    obtain ⟨k, v⟩ := c
    rw [wfFrom_cons] at h ⊢
    exact ⟨by omega, h.2⟩

@[simp] theorem wf_zeroed : wf zeroed = true := rfl

theorem lookup_below {lo a : Nat} {m : Memory} (h : wfFrom lo m = true) (ha : a < lo) : lookup m a = unlisted := by
  induction m generalizing lo with
  | nil => rfl
  | cons c m ih =>
    obtain ⟨k, v⟩ := c
    rw [wfFrom_cons] at h
    have hne : k ≠ a := by omega
    simp only [lookup, hne, if_false]
    exact ih h.2.2.2 (by omega)

theorem wfFrom_put {lo a : Nat} {m : Memory} (v : Byte) (h : wfFrom lo m = true) (hlo : lo ≤ a) (ha : a < 2 ^ 24) :
    wfFrom lo (put m a v) = true := by
  induction m generalizing lo with
  | nil =>
    by_cases hv : v = unlisted
    · simp [put, hv]
    · simp only [put, hv, if_false, wfFrom_cons]
      exact ⟨hlo, ha, hv, rfl⟩
  | cons c m ih =>
    obtain ⟨k, w⟩ := c
    have hc := h
    rw [wfFrom_cons] at h
    obtain ⟨h1, h2, h3, h4⟩ := h
    unfold put
    split_ifs with hlt hv heq hv
    · exact hc
    · rw [wfFrom_cons, wfFrom_cons]
      exact ⟨hlo, ha, hv, by omega, h2, h3, h4⟩
    · exact wfFrom_mono h4 (by omega)
    · rw [wfFrom_cons]
      subst heq
      exact ⟨hlo, ha, hv, h4⟩
    · rw [wfFrom_cons]
      exact ⟨h1, h2, h3, ih h4 (by omega)⟩

theorem lookup_cons (k : Nat) (w : Byte) (m : Memory) (b : Nat) :
    lookup ((k, w) :: m) b = if k = b then w else lookup m b := rfl

theorem lookup_put {lo a : Nat} {m : Memory} (v : Byte) (b : Nat) (h : wfFrom lo m = true) :
    lookup (put m a v) b = if b = a then v else lookup m b := by
  induction m generalizing lo with
  | nil =>
    by_cases hv : v = unlisted
    · subst hv; simp [put, lookup]
    · simp [put, hv, lookup, eq_comm]
  | cons c m ih =>
    obtain ⟨k, w⟩ := c
    have hc := h
    rw [wfFrom_cons] at h
    obtain ⟨h1, h2, h3, h4⟩ := h
    have below : a < k → lookup ((k, w) :: m) a = unlisted :=
      lookup_below (lo := k) (wfFrom_cons.2 ⟨le_refl _, h2, h3, h4⟩)
    by_cases hlt : a < k
    · by_cases hv : v = unlisted
      · subst hv
        by_cases hb : b = a
        · subst hb; simp [put, hlt, below hlt]
        · simp [put, hlt, hb]
      · simp [put, hlt, hv, lookup_cons a, eq_comm]
    · by_cases heq : a = k
      · subst heq
        by_cases hb : b = a
        · subst hb
          by_cases hv : v = unlisted
          · simp [put, hv, lookup_below h4 (Nat.lt_succ_self _)]
          · simp [put, hv, lookup_cons]
        · by_cases hv : v = unlisted
          · simp [put, hv, lookup_cons, hb, Ne.symm hb]
          · simp [put, hv, lookup_cons, hb, Ne.symm hb]
      · by_cases hb : k = b
        · subst hb
          simp [put, hlt, heq, lookup_cons, Ne.symm heq]
        · simp [put, hlt, heq, lookup_cons, hb, ih h4]

/-- Canonical memories that read alike are the same list. -/
theorem wfFrom_ext {lo : Nat} {m m' : Memory} (h : wfFrom lo m = true) (h' : wfFrom lo m' = true)
    (heq : ∀ a, lookup m a = lookup m' a) : m = m' := by
  induction m generalizing lo m' with
  | nil =>
    cases m' with
    | nil => rfl
    | cons c m' =>
      obtain ⟨k, v⟩ := c
      rw [wfFrom_cons] at h'
      have := heq k
      simp [lookup] at this
      exact absurd this.symm h'.2.2.1
  | cons c m ih =>
    obtain ⟨k, v⟩ := c
    have hc := h
    rw [wfFrom_cons] at h
    cases m' with
    | nil =>
      have := heq k
      simp [lookup] at this
      exact absurd this h.2.2.1
    | cons c' m' =>
      obtain ⟨k', v'⟩ := c'
      have hc' := h'
      rw [wfFrom_cons] at h'
      have hk : k = k' := by
        rcases Nat.lt_trichotomy k k' with hlt | hk | hlt
        · have h0 := heq k
          rw [lookup_below (lo := k') (wfFrom_cons.2 ⟨le_refl _, h'.2⟩) hlt] at h0
          simp [lookup] at h0
          exact absurd h0 h.2.2.1
        · exact hk
        · have h0 := heq k'
          rw [lookup_below (lo := k) (wfFrom_cons.2 ⟨le_refl _, h.2⟩) hlt] at h0
          simp [lookup] at h0
          exact absurd h0.symm h'.2.2.1
      subst hk
      have hv : v = v' := by simpa [lookup] using heq k
      subst hv
      rw [ih h.2.2.2 h'.2.2.2 (fun a => ?_)]
      by_cases ha : a = k
      · subst ha
        rw [lookup_below h.2.2.2 (by omega), lookup_below h'.2.2.2 (by omega)]
      · have := heq a
        simpa [lookup, Ne.symm ha] using this

theorem lookup_above {lo a : Nat} {m : Memory} (h : wfFrom lo m = true) (ha : 2 ^ 24 ≤ a) : lookup m a = unlisted := by
  induction m generalizing lo with
  | nil => rfl
  | cons c m ih =>
    obtain ⟨k, v⟩ := c
    rw [wfFrom_cons] at h
    have hne : k ≠ a := by omega
    simp only [lookup, hne, if_false]
    exact ih h.2.2.2

/-- Equal memories are equal data: canonical memories with the same byte at every address are the same list. -/
theorem ext_read {m m' : Memory} (h : m.wf = true) (h' : m'.wf = true) (heq : ∀ a, m.read a = m'.read a) : m = m' := by
  refine wfFrom_ext h h' fun a => ?_
  by_cases ha : a < 2 ^ 24
  · have := heq (maskAddr a)
    rwa [read, read, maskAddr_toNat, Nat.mod_eq_of_lt ha] at this
  · rw [lookup_above h (by omega), lookup_above h' (by omega)]

/-! One byte read and written (R38). -/

@[simp] theorem read_zeroed (a : Addr) : zeroed.read a = 0#8 := rfl

theorem read_write {m : Memory} (h : m.wf = true) (a b : Addr) (v : Byte) :
    (m.write a v).read b = if b = a then v else m.read b := by
  simp only [read, write, lookup_put v b.toNat h]
  by_cases hb : b = a
  · simp [hb]
  · have : b.toNat ≠ a.toNat := fun e => hb (BitVec.eq_of_toNat_eq e)
    simp [hb, this]

theorem read_write_same {m : Memory} (h : m.wf = true) (a : Addr) (v : Byte) : (m.write a v).read a = v := by
  simp [read_write h]

theorem read_write_other {m : Memory} (h : m.wf = true) {a b : Addr} (v : Byte) (hne : b ≠ a) :
    (m.write a v).read b = m.read b := by
  simp [read_write h, hne]

@[simp] theorem wf_write {m : Memory} (h : m.wf = true) (a : Addr) (v : Byte) : (m.write a v).wf = true :=
  wfFrom_put v h (Nat.zero_le _) a.isLt

/-- Writing what a cell holds changes nothing (the `src = dst` corner of R60). -/
theorem write_read_self {m : Memory} (h : m.wf = true) (a : Addr) : m.write a (m.read a) = m := by
  refine ext_read (wf_write h _ _) h fun b => ?_
  by_cases hb : b = a
  · rw [hb, read_write_same h]
  · rw [read_write_other h _ hb]

/-! The primitives. -/

theorem memRead_one (m : Memory) (a : Nat) : m.memRead a 1 = (m.read (maskAddr a)).toNat := by
  simp [memRead, List.range_succ]

theorem memRead_two (m : Memory) (a : Nat) :
    m.memRead a 2 = (m.read (maskAddr a)).toNat * 256 + (m.read (maskAddr (a + 1))).toNat := by
  simp only [memRead, List.range_succ, List.range_zero, List.nil_append, List.cons_append, List.foldl_cons,
    List.foldl_nil, Nat.zero_shiftLeft, Nat.zero_or, Nat.add_zero]
  rw [← Nat.shiftLeft_add_eq_or_of_lt (BitVec.isLt _), Nat.shiftLeft_eq]

theorem memRead_three (m : Memory) (a : Nat) :
    m.memRead a 3 = (be24 (m.read (maskAddr a)) (m.read (maskAddr (a + 1))) (m.read (maskAddr (a + 2)))).toNat := by
  rw [be24_toNat]
  simp only [memRead, List.range_succ, List.range_zero, List.nil_append, List.cons_append, List.foldl_cons,
    List.foldl_nil, Nat.zero_shiftLeft, Nat.zero_or, Nat.add_zero]
  rw [← Nat.shiftLeft_add_eq_or_of_lt (BitVec.isLt _), ← Nat.shiftLeft_add_eq_or_of_lt (BitVec.isLt _),
    Nat.shiftLeft_eq, Nat.shiftLeft_eq]
  omega

/-- A field is its three bytes, most significant first (R51). -/
theorem readField_eq (m : Memory) (a : Nat) :
    m.readField a = be24 (m.read (maskAddr a)) (m.read (maskAddr (a + 1))) (m.read (maskAddr (a + 2))) := by
  simp [readField, memRead_three]

/-- `audioBase` is `M[6] ++ M[7] ++ 0x00` (R75). -/
theorem audioBase_eq (m : Memory) : m.audioBase = be24 (m.read 6#24) (m.read 7#24) 0#8 := by
  have h6 := (m.read 6#24).isLt
  have h7 := (m.read 7#24).isLt
  apply BitVec.eq_of_toNat_eq
  rw [audioBase, show Config.apageAddr = 6 from rfl, memRead_two, be24_toNat, BitVec.toNat_ofNat, Nat.shiftLeft_eq]
  simp only [show maskAddr 6 = 6#24 from rfl, show maskAddr (6 + 1) = 7#24 from rfl]
  simp only [BitVec.toNat_ofNat] at *
  omega

/-- `videoBase` is `M[5] ++ 0x0000` (R76). -/
theorem videoBase_eq (m : Memory) : m.videoBase = be24 (m.read 5#24) 0#8 0#8 := by
  have h5 := (m.read 5#24).isLt
  apply BitVec.eq_of_toNat_eq
  rw [videoBase, show Config.vpageAddr = 5 from rfl, memRead_one, be24_toNat, BitVec.toNat_ofNat, Nat.shiftLeft_eq]
  simp only [show maskAddr 5 = 5#24 from rfl]
  simp only [BitVec.toNat_ofNat] at *
  omega

/-- PCV is `M[2] ++ M[3] ++ M[4]` (R17). -/
theorem pcVector_eq (m : Memory) : m.pcVector = be24 (m.read 2#24) (m.read 3#24) (m.read 4#24) := by
  rw [pcVector, show Config.pcvAddr = 2 from rfl, readField_eq]
  rfl

/-- The two-byte write of the input latch is two byte writes (R37). -/
theorem memWrite_two (m : Memory) (a v : Nat) :
    m.memWrite a 2 v = (m.write (maskAddr a) (byteOf 2 v 0)).write (maskAddr (a + 1)) (byteOf 2 v 1) := by
  simp [memWrite, List.range_succ]

@[simp] theorem byteOf_two_hi (w : InputWord) : byteOf 2 w.toNat 0 = w.extractLsb' 8 8 := by
  apply BitVec.eq_of_toNat_eq; simp [byteOf]

@[simp] theorem byteOf_two_lo (w : InputWord) : byteOf 2 w.toNat 1 = w.extractLsb' 0 8 := by
  apply BitVec.eq_of_toNat_eq; simp [byteOf]

@[simp] theorem wf_memWrite {m : Memory} (h : m.wf = true) (a n v : Nat) : (m.memWrite a n v).wf = true := by
  unfold memWrite
  generalize List.range n = l
  induction l generalizing m with
  | nil => exact h
  | cons i l ih => exact ih (wf_write h _ _)

/-- The memory with the input latched reads the word's two bytes at 0 and 1, and everything else as before (R72). -/
theorem read_latched {m : Memory} (h : m.wf = true) (w : InputWord) (a : Addr) :
    (m.memWrite Config.inAddr 2 w.toNat).read a =
      if a = 0#24 then w.extractLsb' 8 8 else if a = 1#24 then w.extractLsb' 0 8 else m.read a := by
  rw [show Config.inAddr = 0 from rfl, memWrite_two, read_write (wf_write h _ _), read_write h]
  simp only [byteOf_two_hi, byteOf_two_lo, show maskAddr 0 = 0#24 from rfl, show maskAddr (0 + 1) = 1#24 from rfl]
  by_cases h0 : a = 0#24
  · subst h0; simp
  · by_cases h1 : a = 1#24
    · subst h1; simp
    · simp [h0, h1]

@[simp] theorem copyRange_length (m : Memory) (a n : Nat) : (m.copyRange a n).length = n := by simp [copyRange]

theorem copyRange_getElem? (m : Memory) (a n i : Nat) (h : i < n) :
    (m.copyRange a n)[i]? = some (m.read (maskAddr (a + i))) := by
  simp [copyRange, h]

/-! Storing bytes and loading a ROM. -/

@[simp] theorem wf_storeBytes {m : Memory} (h : m.wf = true) (a : Nat) (bs : List Byte) :
    (m.storeBytes a bs).wf = true := by
  induction bs generalizing m a with
  | nil => exact h
  | cons b bs ih => exact ih (wf_write h _ _) _

/-- Bytes stored below the top of memory: byte `i` of the list at `addr + i`, every other cell as before. -/
theorem read_storeBytes {m : Memory} (h : m.wf = true) (a : Nat) (bs : List Byte) (hfit : a + bs.length ≤ 2 ^ 24)
    (b : Addr) :
    (m.storeBytes a bs).read b =
      if a ≤ b.toNat ∧ b.toNat < a + bs.length then bs.getD (b.toNat - a) 0 else m.read b := by
  induction bs generalizing m a with
  | nil =>
    have : ¬ (a ≤ b.toNat ∧ b.toNat < a) := by omega
    simp [storeBytes, this]
  | cons v bs ih =>
    simp only [List.length_cons] at hfit ⊢
    rw [storeBytes, ih (wf_write h _ _) (a + 1) (by omega), read_write h]
    have hmask : b = maskAddr a ↔ b.toNat = a := by
      rw [← maskAddr_toNat_self b, maskAddr_inj b.isLt (by omega)]
      simp
    by_cases hb : b.toNat = a
    · have hn : ¬ (a + 1 ≤ b.toNat ∧ b.toNat < a + 1 + bs.length) := by omega
      have hy : a ≤ b.toNat ∧ b.toNat < a + (bs.length + 1) := by omega
      rw [if_neg hn, if_pos (hmask.2 hb), if_pos hy, hb, Nat.sub_self]
      rfl
    · rw [if_neg (fun e => hb (hmask.1 e))]
      by_cases hin : a + 1 ≤ b.toNat ∧ b.toNat < a + 1 + bs.length
      · have hy : a ≤ b.toNat ∧ b.toNat < a + (bs.length + 1) := by omega
        rw [if_pos hin, if_pos hy, show b.toNat - a = (b.toNat - (a + 1)) + 1 from by omega, List.getD_cons_succ]
      · have hn : ¬ (a ≤ b.toNat ∧ b.toNat < a + (bs.length + 1)) := by omega
        rw [if_neg hin, if_neg hn]

/-- A store of bytes leaves every cell it does not name as it was. -/
theorem read_storeBytes_other {m : Memory} (h : m.wf = true) (a : Nat) (bs : List Byte) (b : Addr)
    (hne : ∀ i, i < bs.length → b ≠ maskAddr (a + i)) : (m.storeBytes a bs).read b = m.read b := by
  induction bs generalizing m a with
  | nil => rfl
  | cons v bs ih =>
    rw [storeBytes, ih (wf_write h _ _), read_write_other h]
    · simpa using hne 0 (by simp)
    · intro i hi
      rw [show a + 1 + i = a + (i + 1) from by omega]
      exact hne (i + 1) (by simpa using hi)

/-- Bytes stored at consecutive masked addresses, across the top of memory too: byte `i` is at `(addr + i) & M24`. -/
theorem read_storeBytes_masked {m : Memory} (h : m.wf = true) (a : Nat) (bs : List Byte) (hl : bs.length ≤ 2 ^ 24)
    (i : Nat) (hi : i < bs.length) : (m.storeBytes a bs).read (maskAddr (a + i)) = bs[i] := by
  induction bs generalizing m a i with
  | nil => simp at hi
  | cons v bs ih =>
    simp only [List.length_cons] at hl hi
    cases i with
    | zero =>
      rw [storeBytes, read_storeBytes_other (wf_write h _ _)]
      · simp [read_write h]
      · intro j hj e
        have := congrArg BitVec.toNat e
        rw [maskAddr_toNat, maskAddr_toNat] at this
        omega
    | succ i =>
      rw [storeBytes, show a + (i + 1) = a + 1 + i from by omega, ih (wf_write h _ _) (a + 1) (by omega) i (by omega)]
      simp

@[simp] theorem wf_ofRom (rom : List Byte) : (ofRom rom).wf = true := wf_storeBytes wf_zeroed _ _

@[simp] theorem wf_copyByte {m : Memory} (h : m.wf = true) (src dst : Addr) : (m.copyByte src dst).wf = true :=
  wf_write h _ _

/-- The single-byte copy of R60 c. -/
theorem read_copyByte {m : Memory} (h : m.wf = true) (src dst a : Addr) :
    (m.copyByte src dst).read a = if a = dst then m.read src else m.read a :=
  read_write h _ _ _

end Memory

end Sys2Proof.Machine
end

