-- ==== Sys2Proof/Laws/PerInstr.lean ====
section
/-! SUPPORT. Statements made once per constructor of `Instr`. -/

namespace Sys2Proof.Laws.EncodeLength

/-- Every instruction encodes to nine bytes (R50, R55) and is well formed (R53). -/
def Statement (i : Instr) : Prop := (encode i).length = Config.instrBytes ∧ i.wellFormed = true

/-- The one constructor. -/
theorem cpj (src dst next : Addr) : Statement (.cpj src dst next) := ⟨rfl, rfl⟩

end Sys2Proof.Laws.EncodeLength
end

