-- ==== Sys2Proof/Laws/State.lean ====
section
/-! SUPPORT. One lemma a field and setter of State, so that no later proof unfolds a record update; and the fields of the
reset state. -/

namespace Sys2Proof.Machine.State

variable (s : State)

@[simp] theorem setMem_mem (m : Memory) : (s.setMem m).mem = m := rfl
@[simp] theorem setMem_pc (m : Memory) : (s.setMem m).pc = s.pc := rfl
@[simp] theorem setMem_icount (m : Memory) : (s.setMem m).icount = s.icount := rfl
@[simp] theorem setMem_phase (m : Memory) : (s.setMem m).phase = s.phase := rfl
@[simp] theorem setMem_inlatch (m : Memory) : (s.setMem m).inlatch = s.inlatch := rfl
@[simp] theorem setMem_abase (m : Memory) : (s.setMem m).abase = s.abase := rfl
@[simp] theorem setMem_vbase (m : Memory) : (s.setMem m).vbase = s.vbase := rfl
@[simp] theorem setMem_audio (m : Memory) : (s.setMem m).audio = s.audio := rfl
@[simp] theorem setMem_video (m : Memory) : (s.setMem m).video = s.video := rfl
@[simp] theorem setMem_host (m : Memory) : (s.setMem m).host = s.host := rfl
@[simp] theorem setMem_out (m : Memory) : (s.setMem m).out = s.out := rfl

@[simp] theorem setPc_mem (a : Addr) : (s.setPc a).mem = s.mem := rfl
@[simp] theorem setPc_pc (a : Addr) : (s.setPc a).pc = a := rfl
@[simp] theorem setPc_icount (a : Addr) : (s.setPc a).icount = s.icount := rfl
@[simp] theorem setPc_phase (a : Addr) : (s.setPc a).phase = s.phase := rfl
@[simp] theorem setPc_inlatch (a : Addr) : (s.setPc a).inlatch = s.inlatch := rfl
@[simp] theorem setPc_abase (a : Addr) : (s.setPc a).abase = s.abase := rfl
@[simp] theorem setPc_vbase (a : Addr) : (s.setPc a).vbase = s.vbase := rfl
@[simp] theorem setPc_audio (a : Addr) : (s.setPc a).audio = s.audio := rfl
@[simp] theorem setPc_video (a : Addr) : (s.setPc a).video = s.video := rfl
@[simp] theorem setPc_host (a : Addr) : (s.setPc a).host = s.host := rfl
@[simp] theorem setPc_out (a : Addr) : (s.setPc a).out = s.out := rfl

@[simp] theorem setIcount_mem (n : BitVec 17) : (s.setIcount n).mem = s.mem := rfl
@[simp] theorem setIcount_pc (n : BitVec 17) : (s.setIcount n).pc = s.pc := rfl
@[simp] theorem setIcount_icount (n : BitVec 17) : (s.setIcount n).icount = n := rfl
@[simp] theorem setIcount_phase (n : BitVec 17) : (s.setIcount n).phase = s.phase := rfl
@[simp] theorem setIcount_inlatch (n : BitVec 17) : (s.setIcount n).inlatch = s.inlatch := rfl
@[simp] theorem setIcount_abase (n : BitVec 17) : (s.setIcount n).abase = s.abase := rfl
@[simp] theorem setIcount_vbase (n : BitVec 17) : (s.setIcount n).vbase = s.vbase := rfl
@[simp] theorem setIcount_audio (n : BitVec 17) : (s.setIcount n).audio = s.audio := rfl
@[simp] theorem setIcount_video (n : BitVec 17) : (s.setIcount n).video = s.video := rfl
@[simp] theorem setIcount_host (n : BitVec 17) : (s.setIcount n).host = s.host := rfl
@[simp] theorem setIcount_out (n : BitVec 17) : (s.setIcount n).out = s.out := rfl

@[simp] theorem setPhase_mem (p : Phase) : (s.setPhase p).mem = s.mem := rfl
@[simp] theorem setPhase_pc (p : Phase) : (s.setPhase p).pc = s.pc := rfl
@[simp] theorem setPhase_icount (p : Phase) : (s.setPhase p).icount = s.icount := rfl
@[simp] theorem setPhase_phase (p : Phase) : (s.setPhase p).phase = p := rfl
@[simp] theorem setPhase_inlatch (p : Phase) : (s.setPhase p).inlatch = s.inlatch := rfl
@[simp] theorem setPhase_abase (p : Phase) : (s.setPhase p).abase = s.abase := rfl
@[simp] theorem setPhase_vbase (p : Phase) : (s.setPhase p).vbase = s.vbase := rfl
@[simp] theorem setPhase_audio (p : Phase) : (s.setPhase p).audio = s.audio := rfl
@[simp] theorem setPhase_video (p : Phase) : (s.setPhase p).video = s.video := rfl
@[simp] theorem setPhase_host (p : Phase) : (s.setPhase p).host = s.host := rfl
@[simp] theorem setPhase_out (p : Phase) : (s.setPhase p).out = s.out := rfl

@[simp] theorem setInlatch_mem (w : InputWord) : (s.setInlatch w).mem = s.mem := rfl
@[simp] theorem setInlatch_pc (w : InputWord) : (s.setInlatch w).pc = s.pc := rfl
@[simp] theorem setInlatch_icount (w : InputWord) : (s.setInlatch w).icount = s.icount := rfl
@[simp] theorem setInlatch_phase (w : InputWord) : (s.setInlatch w).phase = s.phase := rfl
@[simp] theorem setInlatch_inlatch (w : InputWord) : (s.setInlatch w).inlatch = w := rfl
@[simp] theorem setInlatch_abase (w : InputWord) : (s.setInlatch w).abase = s.abase := rfl
@[simp] theorem setInlatch_vbase (w : InputWord) : (s.setInlatch w).vbase = s.vbase := rfl
@[simp] theorem setInlatch_audio (w : InputWord) : (s.setInlatch w).audio = s.audio := rfl
@[simp] theorem setInlatch_video (w : InputWord) : (s.setInlatch w).video = s.video := rfl
@[simp] theorem setInlatch_host (w : InputWord) : (s.setInlatch w).host = s.host := rfl
@[simp] theorem setInlatch_out (w : InputWord) : (s.setInlatch w).out = s.out := rfl

@[simp] theorem setAudio_mem (b : Addr) (f : List Byte) : (s.setAudio b f).mem = s.mem := rfl
@[simp] theorem setAudio_pc (b : Addr) (f : List Byte) : (s.setAudio b f).pc = s.pc := rfl
@[simp] theorem setAudio_icount (b : Addr) (f : List Byte) : (s.setAudio b f).icount = s.icount := rfl
@[simp] theorem setAudio_phase (b : Addr) (f : List Byte) : (s.setAudio b f).phase = s.phase := rfl
@[simp] theorem setAudio_inlatch (b : Addr) (f : List Byte) : (s.setAudio b f).inlatch = s.inlatch := rfl
@[simp] theorem setAudio_abase (b : Addr) (f : List Byte) : (s.setAudio b f).abase = b := rfl
@[simp] theorem setAudio_vbase (b : Addr) (f : List Byte) : (s.setAudio b f).vbase = s.vbase := rfl
@[simp] theorem setAudio_audio (b : Addr) (f : List Byte) : (s.setAudio b f).audio = some f := rfl
@[simp] theorem setAudio_video (b : Addr) (f : List Byte) : (s.setAudio b f).video = s.video := rfl
@[simp] theorem setAudio_host (b : Addr) (f : List Byte) : (s.setAudio b f).host = s.host := rfl
@[simp] theorem setAudio_out (b : Addr) (f : List Byte) : (s.setAudio b f).out = s.out := rfl

@[simp] theorem setVideo_mem (b : Addr) (f : List Byte) : (s.setVideo b f).mem = s.mem := rfl
@[simp] theorem setVideo_pc (b : Addr) (f : List Byte) : (s.setVideo b f).pc = s.pc := rfl
@[simp] theorem setVideo_icount (b : Addr) (f : List Byte) : (s.setVideo b f).icount = s.icount := rfl
@[simp] theorem setVideo_phase (b : Addr) (f : List Byte) : (s.setVideo b f).phase = s.phase := rfl
@[simp] theorem setVideo_inlatch (b : Addr) (f : List Byte) : (s.setVideo b f).inlatch = s.inlatch := rfl
@[simp] theorem setVideo_abase (b : Addr) (f : List Byte) : (s.setVideo b f).abase = s.abase := rfl
@[simp] theorem setVideo_vbase (b : Addr) (f : List Byte) : (s.setVideo b f).vbase = b := rfl
@[simp] theorem setVideo_audio (b : Addr) (f : List Byte) : (s.setVideo b f).audio = s.audio := rfl
@[simp] theorem setVideo_video (b : Addr) (f : List Byte) : (s.setVideo b f).video = some f := rfl
@[simp] theorem setVideo_host (b : Addr) (f : List Byte) : (s.setVideo b f).host = s.host := rfl
@[simp] theorem setVideo_out (b : Addr) (f : List Byte) : (s.setVideo b f).out = s.out := rfl

@[simp] theorem setHost_mem (cs : List HostCmd) : (s.setHost cs).mem = s.mem := rfl
@[simp] theorem setHost_pc (cs : List HostCmd) : (s.setHost cs).pc = s.pc := rfl
@[simp] theorem setHost_icount (cs : List HostCmd) : (s.setHost cs).icount = s.icount := rfl
@[simp] theorem setHost_phase (cs : List HostCmd) : (s.setHost cs).phase = s.phase := rfl
@[simp] theorem setHost_inlatch (cs : List HostCmd) : (s.setHost cs).inlatch = s.inlatch := rfl
@[simp] theorem setHost_abase (cs : List HostCmd) : (s.setHost cs).abase = s.abase := rfl
@[simp] theorem setHost_vbase (cs : List HostCmd) : (s.setHost cs).vbase = s.vbase := rfl
@[simp] theorem setHost_audio (cs : List HostCmd) : (s.setHost cs).audio = s.audio := rfl
@[simp] theorem setHost_video (cs : List HostCmd) : (s.setHost cs).video = s.video := rfl
@[simp] theorem setHost_host (cs : List HostCmd) : (s.setHost cs).host = cs := rfl
@[simp] theorem setHost_out (cs : List HostCmd) : (s.setHost cs).out = s.out := rfl

@[simp] theorem emit_mem (os : List Output) : (s.emit os).mem = s.mem := rfl
@[simp] theorem emit_pc (os : List Output) : (s.emit os).pc = s.pc := rfl
@[simp] theorem emit_icount (os : List Output) : (s.emit os).icount = s.icount := rfl
@[simp] theorem emit_phase (os : List Output) : (s.emit os).phase = s.phase := rfl
@[simp] theorem emit_inlatch (os : List Output) : (s.emit os).inlatch = s.inlatch := rfl
@[simp] theorem emit_abase (os : List Output) : (s.emit os).abase = s.abase := rfl
@[simp] theorem emit_vbase (os : List Output) : (s.emit os).vbase = s.vbase := rfl
@[simp] theorem emit_audio (os : List Output) : (s.emit os).audio = s.audio := rfl
@[simp] theorem emit_video (os : List Output) : (s.emit os).video = s.video := rfl
@[simp] theorem emit_host (os : List Output) : (s.emit os).host = s.host := rfl
@[simp] theorem emit_out (os : List Output) : (s.emit os).out = s.out ++ os := rfl

@[simp] theorem reset_mem : reset.mem = [] := rfl
@[simp] theorem reset_pc : reset.pc = 0#24 := rfl
@[simp] theorem reset_icount : reset.icount = 0#17 := rfl
@[simp] theorem reset_phase : reset.phase = .idle := rfl
@[simp] theorem reset_inlatch : reset.inlatch = 0#16 := rfl
@[simp] theorem reset_abase : reset.abase = 0#24 := rfl
@[simp] theorem reset_vbase : reset.vbase = 0#24 := rfl
@[simp] theorem reset_audio : reset.audio = none := rfl
@[simp] theorem reset_video : reset.video = none := rfl
@[simp] theorem reset_host : reset.host = [] := rfl
@[simp] theorem reset_out : reset.out = [] := rfl

/-- Two states with the same fields are the same state. -/
theorem ext_fields {s t : State} (mem : s.mem = t.mem) (pc : s.pc = t.pc) (icount : s.icount = t.icount)
    (phase : s.phase = t.phase) (inlatch : s.inlatch = t.inlatch) (abase : s.abase = t.abase) (vbase : s.vbase = t.vbase)
    (audio : s.audio = t.audio) (video : s.video = t.video) (host : s.host = t.host) (out : s.out = t.out) : s = t := by
  cases s; cases t; simp_all

end Sys2Proof.Machine.State
end

