-- ==== Sys2Proof/Laws/Sequencer.lean ====
section
/-! SUPPORT. One lemma a field for each step of RUN that is not an instruction: what it writes, and that it writes nothing
else. -/

namespace Sys2Proof.Machine

variable (s : State)

@[simp] theorem latchInput_mem : (latchInput s).mem = s.mem.memWrite Config.inAddr 2 s.inlatch.toNat := rfl
@[simp] theorem latchInput_pc : (latchInput s).pc = s.pc := rfl
@[simp] theorem latchInput_icount : (latchInput s).icount = s.icount := rfl
@[simp] theorem latchInput_phase : (latchInput s).phase = .running .pcLoad := rfl
@[simp] theorem latchInput_inlatch : (latchInput s).inlatch = s.inlatch := rfl
@[simp] theorem latchInput_abase : (latchInput s).abase = s.abase := rfl
@[simp] theorem latchInput_vbase : (latchInput s).vbase = s.vbase := rfl
@[simp] theorem latchInput_audio : (latchInput s).audio = s.audio := rfl
@[simp] theorem latchInput_video : (latchInput s).video = s.video := rfl
@[simp] theorem latchInput_host : (latchInput s).host = s.host := rfl
@[simp] theorem latchInput_out : (latchInput s).out = s.out := rfl

@[simp] theorem loadPc_mem : (loadPc s).mem = s.mem := rfl
@[simp] theorem loadPc_pc : (loadPc s).pc = s.mem.pcVector := rfl
@[simp] theorem loadPc_icount : (loadPc s).icount = 0#17 := rfl
@[simp] theorem loadPc_phase : (loadPc s).phase = .running .loop := rfl
@[simp] theorem loadPc_inlatch : (loadPc s).inlatch = s.inlatch := rfl
@[simp] theorem loadPc_abase : (loadPc s).abase = s.abase := rfl
@[simp] theorem loadPc_vbase : (loadPc s).vbase = s.vbase := rfl
@[simp] theorem loadPc_audio : (loadPc s).audio = s.audio := rfl
@[simp] theorem loadPc_video : (loadPc s).video = s.video := rfl
@[simp] theorem loadPc_host : (loadPc s).host = s.host := rfl
@[simp] theorem loadPc_out : (loadPc s).out = s.out := rfl

@[simp] theorem leaveLoop_mem : (leaveLoop s).mem = s.mem := rfl
@[simp] theorem leaveLoop_pc : (leaveLoop s).pc = s.pc := rfl
@[simp] theorem leaveLoop_icount : (leaveLoop s).icount = s.icount := rfl
@[simp] theorem leaveLoop_phase : (leaveLoop s).phase = .running .audio := rfl
@[simp] theorem leaveLoop_inlatch : (leaveLoop s).inlatch = s.inlatch := rfl
@[simp] theorem leaveLoop_abase : (leaveLoop s).abase = s.abase := rfl
@[simp] theorem leaveLoop_vbase : (leaveLoop s).vbase = s.vbase := rfl
@[simp] theorem leaveLoop_audio : (leaveLoop s).audio = s.audio := rfl
@[simp] theorem leaveLoop_video : (leaveLoop s).video = s.video := rfl
@[simp] theorem leaveLoop_host : (leaveLoop s).host = s.host := rfl
@[simp] theorem leaveLoop_out : (leaveLoop s).out = s.out := rfl

@[simp] theorem extractAudio_mem : (extractAudio s).mem = s.mem := rfl
@[simp] theorem extractAudio_pc : (extractAudio s).pc = s.pc := rfl
@[simp] theorem extractAudio_icount : (extractAudio s).icount = s.icount := rfl
@[simp] theorem extractAudio_phase : (extractAudio s).phase = .running .video := rfl
@[simp] theorem extractAudio_inlatch : (extractAudio s).inlatch = s.inlatch := rfl
@[simp] theorem extractAudio_abase : (extractAudio s).abase = s.mem.audioBase := rfl
@[simp] theorem extractAudio_vbase : (extractAudio s).vbase = s.vbase := rfl
@[simp] theorem extractAudio_audio : (extractAudio s).audio = some (s.mem.copyRange s.mem.audioBase.toNat Config.audioBytes) := rfl
@[simp] theorem extractAudio_video : (extractAudio s).video = s.video := rfl
@[simp] theorem extractAudio_host : (extractAudio s).host = s.host := rfl
@[simp] theorem extractAudio_out : (extractAudio s).out = s.out := rfl

@[simp] theorem extractVideo_mem : (extractVideo s).mem = s.mem := rfl
@[simp] theorem extractVideo_pc : (extractVideo s).pc = s.pc := rfl
@[simp] theorem extractVideo_icount : (extractVideo s).icount = s.icount := rfl
@[simp] theorem extractVideo_phase : (extractVideo s).phase = .running .deliverAudio := rfl
@[simp] theorem extractVideo_inlatch : (extractVideo s).inlatch = s.inlatch := rfl
@[simp] theorem extractVideo_abase : (extractVideo s).abase = s.abase := rfl
@[simp] theorem extractVideo_vbase : (extractVideo s).vbase = s.mem.videoBase := rfl
@[simp] theorem extractVideo_audio : (extractVideo s).audio = s.audio := rfl
@[simp] theorem extractVideo_video : (extractVideo s).video = some (s.mem.copyRange s.mem.videoBase.toNat Config.videoBytes) := rfl
@[simp] theorem extractVideo_host : (extractVideo s).host = s.host := rfl
@[simp] theorem extractVideo_out : (extractVideo s).out = s.out := rfl

@[simp] theorem deliverAudio_mem : (deliverAudio s).mem = s.mem := rfl
@[simp] theorem deliverAudio_pc : (deliverAudio s).pc = s.pc := rfl
@[simp] theorem deliverAudio_icount : (deliverAudio s).icount = s.icount := rfl
@[simp] theorem deliverAudio_phase : (deliverAudio s).phase = .running .deliverVideo := rfl
@[simp] theorem deliverAudio_inlatch : (deliverAudio s).inlatch = s.inlatch := rfl
@[simp] theorem deliverAudio_abase : (deliverAudio s).abase = s.abase := rfl
@[simp] theorem deliverAudio_vbase : (deliverAudio s).vbase = s.vbase := rfl
@[simp] theorem deliverAudio_audio : (deliverAudio s).audio = s.audio := rfl
@[simp] theorem deliverAudio_video : (deliverAudio s).video = s.video := rfl
@[simp] theorem deliverAudio_host : (deliverAudio s).host = s.host := rfl
@[simp] theorem deliverAudio_out : (deliverAudio s).out = s.out ++ s.audio.toList.map .audio := rfl

@[simp] theorem deliverVideo_mem : (deliverVideo s).mem = s.mem := rfl
@[simp] theorem deliverVideo_pc : (deliverVideo s).pc = s.pc := rfl
@[simp] theorem deliverVideo_icount : (deliverVideo s).icount = s.icount := rfl
@[simp] theorem deliverVideo_phase : (deliverVideo s).phase = .idle := rfl
@[simp] theorem deliverVideo_inlatch : (deliverVideo s).inlatch = s.inlatch := rfl
@[simp] theorem deliverVideo_abase : (deliverVideo s).abase = s.abase := rfl
@[simp] theorem deliverVideo_vbase : (deliverVideo s).vbase = s.vbase := rfl
@[simp] theorem deliverVideo_audio : (deliverVideo s).audio = s.audio := rfl
@[simp] theorem deliverVideo_video : (deliverVideo s).video = s.video := rfl
@[simp] theorem deliverVideo_host : (deliverVideo s).host = s.host := rfl
@[simp] theorem deliverVideo_out : (deliverVideo s).out = s.out ++ s.video.toList.map .video := rfl

end Sys2Proof.Machine
end

