-- ==== Sys2Proof/Laws/Step.lean ====
section
/-! SUPPORT. Fetch, the meaning of the instruction, and everything one step can do: one equation a phase, the inversion
lemma, and the composition of runs. -/

namespace Sys2Proof.Machine

/-! Fetch. -/

/-- Fetch reads the three fields (R51, R60 a and b). -/
theorem fetchInstr_fields (m : Memory) (pc : Addr) :
    fetchInstr m pc = .cpj (m.srcField pc) (m.dstField pc) (m.nextField pc) := by
  simp [fetchInstr, decodeNine, Memory.srcField, Memory.dstField, Memory.nextField, Memory.readField_eq, Nat.add_assoc]

/-- A field of the instruction at `pc`, byte by byte, in 24-bit modular addition (R63, R66). -/
theorem srcField_bytes (m : Memory) (pc : Addr) :
    m.srcField pc = be24 (m.read pc) (m.read (pc + 1#24)) (m.read (pc + 2#24)) := by
  simp [Memory.srcField, Memory.readField_eq, maskAddr_add]

theorem dstField_bytes (m : Memory) (pc : Addr) :
    m.dstField pc = be24 (m.read (pc + 3#24)) (m.read (pc + 4#24)) (m.read (pc + 5#24)) := by
  simp [Memory.dstField, Memory.readField_eq, maskAddr_add, Nat.add_assoc]

theorem nextField_bytes (m : Memory) (pc : Addr) :
    m.nextField pc = be24 (m.read (pc + 6#24)) (m.read (pc + 7#24)) (m.read (pc + 8#24)) := by
  simp [Memory.nextField, Memory.readField_eq, maskAddr_add, Nat.add_assoc]

/-- The decoder on the nine bytes at `pc` gives the fetched instruction and leaves nothing. -/
theorem decode_instrBytesAt (m : Memory) (pc : Addr) : decode (m.instrBytesAt pc) = .ok (fetchInstr m pc, []) := rfl

/-! The meaning. -/

theorem execCpj_next (src dst : Addr) (s : State) :
    execCpj src dst s =
      .next ((s.setMem (s.mem.copyByte src dst)).setPc ((s.mem.copyByte src dst).nextField s.pc)) := rfl

theorem exec_cpj (src dst next : Addr) (s : State) : exec (.cpj src dst next) s = execCpj src dst s := rfl

@[simp] theorem countInstr_next (s : State) : countInstr (.next s) = .next (s.setIcount (s.icount + 1#17)) := rfl

theorem loopContinues_iff (s : State) : loopContinues s = true ↔ s.icount.toNat < Config.instrPerFrame := by
  simp [loopContinues]

/-! One equation a phase. -/

/-- The state after the instruction at `pc` and the count (R60, R74). -/
def afterInstr (s : State) : State :=
  ((s.setMem (s.mem.copyByte (s.mem.srcField s.pc) (s.mem.dstField s.pc))).setPc
    ((s.mem.copyByte (s.mem.srcField s.pc) (s.mem.dstField s.pc)).nextField s.pc)).setIcount (s.icount + 1#17)

@[simp] theorem afterInstr_mem (s : State) : (afterInstr s).mem = s.mem.copyByte (s.mem.srcField s.pc) (s.mem.dstField s.pc) := rfl
@[simp] theorem afterInstr_pc (s : State) : (afterInstr s).pc = (s.mem.copyByte (s.mem.srcField s.pc) (s.mem.dstField s.pc)).nextField s.pc := rfl
@[simp] theorem afterInstr_icount (s : State) : (afterInstr s).icount = s.icount + 1#17 := rfl
@[simp] theorem afterInstr_phase (s : State) : (afterInstr s).phase = s.phase := rfl
@[simp] theorem afterInstr_inlatch (s : State) : (afterInstr s).inlatch = s.inlatch := rfl
@[simp] theorem afterInstr_abase (s : State) : (afterInstr s).abase = s.abase := rfl
@[simp] theorem afterInstr_vbase (s : State) : (afterInstr s).vbase = s.vbase := rfl
@[simp] theorem afterInstr_audio (s : State) : (afterInstr s).audio = s.audio := rfl
@[simp] theorem afterInstr_video (s : State) : (afterInstr s).video = s.video := rfl
@[simp] theorem afterInstr_host (s : State) : (afterInstr s).host = s.host := rfl
@[simp] theorem afterInstr_out (s : State) : (afterInstr s).out = s.out := rfl

theorem step_idle {s : State} (h : s.phase = .idle) : step s = .next (idleStep s) := by simp [step, h]

theorem step_inputLatch {s : State} (h : s.phase = .running .inputLatch) : step s = .next (latchInput s) := by
  simp [step, h]

theorem step_pcLoad {s : State} (h : s.phase = .running .pcLoad) : step s = .next (loadPc s) := by simp [step, h]

theorem step_instr {s : State} (h : s.phase = .running .loop) (hc : s.icount.toNat < Config.instrPerFrame) :
    step s = .next (afterInstr s) := by
  simp [step, h, (loopContinues_iff s).2 hc, fetchInstr_fields, exec_cpj, execCpj_next, afterInstr]

theorem step_leaveLoop {s : State} (h : s.phase = .running .loop) (hc : ¬ s.icount.toNat < Config.instrPerFrame) :
    step s = .next (leaveLoop s) := by
  have : loopContinues s = false := by simpa [loopContinues] using hc
  simp [step, h, this]

theorem step_audio {s : State} (h : s.phase = .running .audio) : step s = .next (extractAudio s) := by simp [step, h]

theorem step_video {s : State} (h : s.phase = .running .video) : step s = .next (extractVideo s) := by simp [step, h]

theorem step_deliverAudio {s : State} (h : s.phase = .running .deliverAudio) : step s = .next (deliverAudio s) := by
  simp [step, h]

theorem step_deliverVideo {s : State} (h : s.phase = .running .deliverVideo) : step s = .next (deliverVideo s) := by
  simp [step, h]

/-- Everything a step can do: if it answers a next state, one of these is it. -/
theorem step_cases {s t : State} (h : step s = .next t) :
    (s.phase = .idle ∧ t = idleStep s) ∨
    (s.phase = .running .inputLatch ∧ t = latchInput s) ∨
    (s.phase = .running .pcLoad ∧ t = loadPc s) ∨
    (s.phase = .running .loop ∧ s.icount.toNat < Config.instrPerFrame ∧ t = afterInstr s) ∨
    (s.phase = .running .loop ∧ ¬ s.icount.toNat < Config.instrPerFrame ∧ t = leaveLoop s) ∨
    (s.phase = .running .audio ∧ t = extractAudio s) ∨
    (s.phase = .running .video ∧ t = extractVideo s) ∨
    (s.phase = .running .deliverAudio ∧ t = deliverAudio s) ∨
    (s.phase = .running .deliverVideo ∧ t = deliverVideo s) := by
  cases hp : s.phase with
  | idle => rw [step_idle hp] at h; cases h; simp
  | running stage =>
    cases stage with
    | inputLatch => rw [step_inputLatch hp] at h; cases h; simp
    | pcLoad => rw [step_pcLoad hp] at h; cases h; simp
    | loop =>
      by_cases hc : s.icount.toNat < Config.instrPerFrame
      · rw [step_instr hp hc] at h; cases h; simp [hc]
      · rw [step_leaveLoop hp hc] at h; cases h; simp [hc]
    | audio => rw [step_audio hp] at h; cases h; simp
    | video => rw [step_video hp] at h; cases h; simp
    | deliverAudio => rw [step_deliverAudio hp] at h; cases h; simp
    | deliverVideo => rw [step_deliverVideo hp] at h; cases h; simp

/-- Everything a step in Idle can do, by the host's next command (R70, R79, R80, R81). -/
theorem idleStep_cases (s : State) :
    (s.host = [] ∧ idleStep s = s) ∨
    (∃ rom rest, s.host = .load rom :: rest ∧ rom.length ≤ Config.romMax ∧
      idleStep s = ((s.setHost rest).setMem (Memory.ofRom rom)).emit [.loaded]) ∨
    (∃ rom rest, s.host = .load rom :: rest ∧ ¬ rom.length ≤ Config.romMax ∧
      idleStep s = (s.setHost rest).emit [.romTooLarge]) ∨
    (∃ input rest, s.host = .run input :: rest ∧
      idleStep s = ((s.setHost rest).setInlatch input).setPhase (.running .inputLatch)) ∨
    (∃ rest, s.host = .reset :: rest ∧ idleStep s = (State.reset.setHost rest).emit s.out) := by
  cases hh : s.host with
  | nil => simp [idleStep, hh]
  | cons c rest =>
    cases c with
    | load rom =>
      by_cases hl : rom.length ≤ Config.romMax
      · simp [idleStep, hh, accept, loadRom, hl]
      · simp [idleStep, hh, accept, loadRom, hl, Nat.lt_of_not_le hl]
    | run input => simp [idleStep, hh, accept, acceptRun]
    | reset => simp [idleStep, hh, accept, construct]

/-! Runs of several steps. -/

@[simp] theorem runSteps_zero (s : State) : runSteps 0 s = .next s := rfl

/-- One more step at the front of a run. -/
theorem run_step {n : Nat} {s t : State} (h : step s = .next t) : runSteps (n + 1) s = runSteps n t := by
  simp only [runSteps, h]

/-- A run of one step is that step. -/
theorem run_one (s : State) : runSteps 1 s = step s := by
  simp only [runSteps]
  cases step s <;> rfl

/-- The first step of a run that answers a next state. -/
theorem run_step_inv {n : Nat} {s t : State} (h : runSteps (n + 1) s = .next t) :
    ∃ u, step s = .next u ∧ runSteps n u = .next t := by
  cases hs : step s with
  | next u => exact ⟨u, rfl, by rw [← run_step hs, h]⟩
  | fault r => exact r.rec
  | refused r =>
    simp only [runSteps, hs] at h
    cases h

/-- A run of `n + k` steps is a run of `k` from where `n` steps end. -/
theorem run_add {n : Nat} {s t : State} (h : runSteps n s = .next t) (k : Nat) :
    runSteps (n + k) s = runSteps k t := by
  induction n generalizing s with
  | zero => cases h; rw [Nat.zero_add]
  | succ n ih =>
    obtain ⟨u, hu, hr⟩ := run_step_inv h
    rw [Nat.succ_add, run_step hu, ih hr]

/-- One more step at the end of a run. -/
theorem run_succ {n : Nat} {s t : State} (h : runSteps n s = .next t) : runSteps (n + 1) s = step t := by
  rw [run_add h, run_one]

/-- `runSteps` is the host interface's run of this machine. -/
theorem run_eq_runSteps (n : Nat) (s : State) : Host.Core.run core n s = runSteps n s := by
  induction n generalizing s with
  | zero => rfl
  | succ n ih =>
    cases hs : step s with
    | next t =>
      rw [run_step hs, ← ih t]
      simp only [Host.Core.run, show core.step s = .next t from hs]
    | fault r => exact r.rec
    | refused r =>
      simp only [Host.Core.run, runSteps, hs, show core.step s = .refused r from hs]
      rfl

/-- One more instruction at the end of a run of them. -/
theorem instrsOn_succ (n : Nat) (c : Memory × Addr) : instrsOn (n + 1) c = cpjOn (instrsOn n c) := by
  induction n generalizing c with
  | zero => rfl
  | succ n ih => rw [instrsOn, ih]; rfl

end Sys2Proof.Machine
end

