-- ==== Sys2Proof/Laws/Port.lean ====
section
/-! SUPPORT. The memory port: what serving a list of accesses does, the accesses of each phase, and those of a run. -/

namespace Sys2Proof.Machine.Port

/-! Serving accesses. -/

@[simp] theorem serve_nil (m : Memory) : serve [] m = some m := rfl

theorem serve_append (l l' : List PortAccess) (m : Memory) : serve (l ++ l') m = (serve l m).bind (serve l') := by
  induction l generalizing m with
  | nil => rfl
  | cons p l ih =>
    obtain ⟨q, k, a, v⟩ := p
    cases k
    · simp only [List.cons_append, serve]
      split
      · exact ih m
      · rfl
    · simp only [List.cons_append, serve, ih]

/-- Reads that return what memory holds are served and leave it as it is (R38). -/
@[simp] theorem serve_reads (q : Requester) (m : Memory) (a n : Nat) : serve (reads q m a n) m = some m := by
  unfold reads
  generalize List.range n = l
  induction l with
  | nil => rfl
  | cons i l ih => simp [serve, ih]

/-- Writes at consecutive addresses are the store of those bytes. -/
theorem serve_writes (q : Requester) (m : Memory) (a : Nat) (bs : List Byte) :
    serve (writes q a bs) m = some (m.storeBytes a bs) := by
  induction bs generalizing m a with
  | nil => rfl
  | cons b bs ih => simp [writes, serve, ih, Memory.storeBytes]

theorem serve_zeros (l : List Nat) {m : Memory} (hm : m.wf = true) :
    ∃ m', serve (l.map fun a => ⟨.load, .write, maskAddr a, 0x00#8⟩) m = some m' ∧ m'.wf = true ∧
      ∀ b, m'.read b = if b ∈ l.map maskAddr then 0x00#8 else m.read b := by
  induction l generalizing m with
  | nil => exact ⟨m, rfl, hm, by simp⟩
  | cons a l ih =>
    obtain ⟨m', h1, h2, h3⟩ := ih (Memory.wf_write hm (maskAddr a) 0#8)
    refine ⟨m', by simpa [serve] using h1, h2, fun b => ?_⟩
    rw [h3, Memory.read_write hm]
    by_cases hb : b = maskAddr a
    · simp [hb]
    · simp only [List.map_cons, List.mem_cons, hb, false_or, if_false]

/-- The zero fill, written cell by cell, leaves the zeroed memory (R79). -/
theorem serve_zeroFill {m : Memory} (hm : m.wf = true) :
    serve zeroFill m = some Memory.zeroed := by
  obtain ⟨m', h1, h2, h3⟩ := serve_zeros (List.range Config.memBytes) hm
  have hz : m' = Memory.zeroed := by
    refine Memory.ext_read h2 Memory.wf_zeroed fun b => ?_
    rw [h3, if_pos]
    · rfl
    · rw [List.mem_map]
      exact ⟨b.toNat, List.mem_range.2 b.isLt, maskAddr_toNat_self b⟩
  rw [← hz, ← h1, zeroFill]

/-! Requesters. -/

/-- Writes for one requester are all that requester's. -/
theorem writes_requester {q : Requester} {a : Nat} {bs : List Byte} {p : PortAccess} (h : p ∈ writes q a bs) :
    p.requester = q := by
  induction bs generalizing a with
  | nil => simp [writes] at h
  | cons b bs ih =>
    rw [writes, List.mem_cons] at h
    rcases h with rfl | h
    · rfl
    · exact ih h

/-- LOAD is the one requester among the host's commands (R37, R40). -/
theorem ofCommand_requester {c : HostCmd} {p : PortAccess} (h : p ∈ ofCommand c) : p.requester = .load := by
  cases c with
  | load rom =>
    simp only [ofCommand] at h
    split at h
    · rcases List.mem_append.1 h with h | h
      · obtain ⟨_, -, rfl⟩ := List.mem_map.1 h; rfl
      · exact writes_requester h
    · simp at h
  | run _ => simp [ofCommand] at h
  | reset => simp [ofCommand] at h

/-! Counting. -/

/-- How many of a list of reads a test picks, when it picks by requester and kind alone. -/
theorem countP_reads (p : PortAccess → Bool) (q : Requester) (m : Memory) (a n : Nat) (c : Bool)
    (h : ∀ x y, p ⟨q, .read, x, y⟩ = c) : (reads q m a n).countP p = if c then n else 0 := by
  unfold reads
  rw [List.countP_map]
  cases c <;> simp [Function.comp_def, h]

/-! The accesses of each phase. -/

variable {s t : State}

theorem ofStep_inputLatch (h : s.phase = .running .inputLatch) : ofStep s =
    writes .inputLatch Config.inAddr [s.inlatch.extractLsb' 8 8, s.inlatch.extractLsb' 0 8] := by simp [ofStep, h]

theorem ofStep_pcLoad (h : s.phase = .running .pcLoad) : ofStep s = reads .pcVector s.mem Config.pcvAddr 3 := by
  simp [ofStep, h]

theorem ofStep_instr (h : s.phase = .running .loop) (hc : s.icount.toNat < Config.instrPerFrame) :
    ofStep s = ofCpj s.mem s.pc := by simp [ofStep, h, (loopContinues_iff s).2 hc]

theorem ofStep_leaveLoop (h : s.phase = .running .loop) (hc : ¬ s.icount.toNat < Config.instrPerFrame) :
    ofStep s = [] := by
  have : loopContinues s = false := by simpa [loopContinues] using hc
  simp [ofStep, h, this]

theorem ofStep_audio (h : s.phase = .running .audio) : ofStep s = reads .audioSelector s.mem Config.apageAddr 2 ++
    reads .audioBlock s.mem s.mem.audioBase.toNat Config.audioBytes := by simp [ofStep, h]

theorem ofStep_video (h : s.phase = .running .video) : ofStep s = reads .videoSelector s.mem Config.vpageAddr 1 ++
    reads .videoBlock s.mem s.mem.videoBase.toNat Config.videoBytes := by simp [ofStep, h]

theorem ofStep_deliverAudio (h : s.phase = .running .deliverAudio) : ofStep s = [] := by simp [ofStep, h]

theorem ofStep_deliverVideo (h : s.phase = .running .deliverVideo) : ofStep s = [] := by simp [ofStep, h]

/-! The accesses of a run. -/

/-- One more step at the front. -/
theorem portOfSteps_step {n : Nat} (h : step s = .next t) :
    portOfSteps (n + 1) s = ofStep s ++ portOfSteps n t := by
  simp [portOfSteps, h]

/-- The accesses of a run of `n + k` steps are those of its first `n` and then those of its last `k`. -/
theorem portOfSteps_add {n : Nat} (h : runSteps n s = .next t) (k : Nat) :
    portOfSteps (n + k) s = portOfSteps n s ++ portOfSteps k t := by
  induction n generalizing s with
  | zero => cases h; simp [portOfSteps]
  | succ n ih =>
    obtain ⟨u, hu, hr⟩ := run_step_inv h
    rw [Nat.succ_add, portOfSteps_step hu, portOfSteps_step hu, ih hr, List.append_assoc]

/-- One more step at the end. -/
theorem portOfSteps_succ {n : Nat} (h : runSteps n s = .next t) :
    portOfSteps (n + 1) s = portOfSteps n s ++ ofStep t := by
  rw [portOfSteps_add h 1]
  congr 1
  simp only [portOfSteps]
  cases step t <;> simp

end Sys2Proof.Machine.Port
end

