-- ==== Sys2Proof/Tests/Slice0.lean ====
section
/-! SUPPORT. The model's own tests. Every expected value is a vector of 95_test_vectors.md (its id stands at the test) or a
number of the rule named. After the tests, one witness for each obligation that has hypotheses. -/

namespace Sys2Proof.Tests

open Sys2Proof Sys2Proof.Machine

/-- A memory from runs of bytes at addresses, all else 0. -/
def ram (runs : List (Nat × List Byte)) : Memory := runs.foldl (fun m r => m.storeBytes r.1 r.2) Memory.zeroed

/-- In the instruction loop at `pc`. -/
def looping (m : Memory) (pc : Addr) : State := { State.reset with mem := m, pc := pc, phase := .running .loop }

/-- Idle over a memory, with one command waiting. -/
def commanded (m : Memory) (c : HostCmd) : State := { State.reset with mem := m, host := [c] }

/-- At a stage of a RUN. -/
def staged (m : Memory) (g : FrameStage) : State := { State.reset with mem := m, phase := .running g }

/-- What a check reads of the state a step answers. -/
def after {α : Type} (s : State) (look : State → α) : Option α :=
  match step s with
  | .next t => some (look t)
  | .fault _ => none
  | .refused _ => none

/-! Well-formedness: the check on each operand refuses a constant past 0xFFFFFF (C3), and takes the greatest that fits. -/

theorem test_src_too_wide_refused : Instr.ofWritten 0x1000000 0 0 = none := by decide
theorem test_dst_too_wide_refused : Instr.ofWritten 0 0x1000000 0 = none := by decide
theorem test_next_too_wide_refused : Instr.ofWritten 0 0 0x1000000 = none := by decide
theorem test_widest_constants_taken :
    Instr.ofWritten 0xFFFFFF 0xFFFFFF 0xFFFFFF = some (.cpj 0xFFFFFF#24 0xFFFFFF#24 0xFFFFFF#24) := by decide

/-! Decoding: words written out from R50's table. -/

/-- E1: `src` 0x000100, `dst` 0x000200, `next` 0x000008. -/
theorem test_decode_E1 : decode [0x00#8, 0x01#8, 0x00#8, 0x00#8, 0x02#8, 0x00#8, 0x00#8, 0x00#8, 0x08#8] =
    .ok (.cpj 0x000100#24 0x000200#24 0x000008#24, []) := by decide

/-- Bit by bit: bit 23 of `src` (bit 71 of the word), bit 0 of `dst` (bit 24), bit 22 of `next` (bit 22). -/
theorem test_decode_bits :
    decodeTableWord 72 (2 ^ 71 + 2 ^ 24 + 2 ^ 22) = some (.cpj 0x800000#24 0x000001#24 0x400000#24) := by decide +kernel

/-- Nine different bytes, each in its place. -/
theorem test_decode_places : decodeTableWord 72 0x010203040506070809 =
    some (.cpj 0x010203#24 0x040506#24 0x070809#24) := by decide +kernel

/-- Eight bytes are not an instruction (R50). -/
theorem test_decode_short : decode (List.replicate 8 0x00#8) = .error (.tooFewBytes 8) := by decide

/-- More bits than the instruction has are refused (R55). -/
theorem test_decode_too_long : decodeTableWord 80 0 = none := by decide

/-! Memory: A1 to A5 and A10. -/

/-- The memory of A1 to A6. -/
def ramA : Memory := ram [(0xFFFFFE, [0x12#8, 0x34#8]), (0, [0x56#8, 0x78#8])]

theorem test_memRead_wraps : ramA.memRead 0xFFFFFE 3 = 0x123456 ∧ ramA.memRead 0xFFFFFF 2 = 0x3456 ∧
    ramA.memRead 0xFFFFFF 3 = 0x345678 ∧ ramA.memRead 0x1000000 3 = 0x567800 := by decide +kernel

theorem test_page_bases : (ram [(6, [0x12#8, 0x34#8])]).audioBase = 0x123400#24 ∧
    (ram [(6, [0xFF#8, 0xFF#8])]).audioBase = 0xFFFF00#24 ∧ (ram [(5, [0xFF#8])]).videoBase = 0xFF0000#24 := by
  decide +kernel

/-- Writing the value an unlisted cell reads as leaves no entry. -/
theorem test_write_zero_removes : (ram [(5, [0x07#8])]).write 5#24 0x00#8 = Memory.zeroed := by decide +kernel

/-! CPJ. -/

/-- S6: copies the middle byte of its own `next` onto the low byte, then jumps there. -/
theorem test_cpj_S6 :
    after (looping (ram [(0x10, [0x00#8, 0x00#8, 0x17#8, 0x00#8, 0x00#8, 0x18#8, 0x12#8, 0x34#8, 0x56#8])]) 0x000010#24)
      (fun t => (t.mem.read 0x000018#24, t.pc)) = some (0x34#8, 0x123434#24) := by decide +kernel

/-- S9: the instruction at 0xFFFFFF wraps after its first byte. -/
theorem test_cpj_S9 :
    after (looping (ram [(0xFFFFFF, [0x00#8]), (0, [0x00#8, 0x09#8, 0x00#8, 0x0A#8, 0x00#8, 0x00#8, 0x0B#8, 0x00#8]),
        (9, [0x5A#8])]) 0xFFFFFF#24)
      (fun t => (t.mem.read 0x000A00#24, t.pc)) = some (0x5A#8, 0x000B00#24) := by decide +kernel

/-- The word of `CPJ 000100, 000200, 123456` runs as the first instruction after reset (log 12). -/
theorem test_withFetchWord_runs :
    after (State.reset.withFetchWord 72 0x000001000200123456) (fun t => (t.pc, t.mem.read 0x000200#24)) =
      some (0x123456#24, 0x00#8) := by decide +kernel

/-! The sequencer. -/

/-- E2: RUN(0xABCD) latches 0xAB and 0xCD. -/
theorem test_latch :
    after { staged Memory.zeroed .inputLatch with inlatch := 0xABCD#16 }
      (fun t => (t.mem.read 0#24, t.mem.read 1#24, t.phase)) = some (0xAB#8, 0xCD#8, .running .pcLoad) := by decide +kernel

/-- A7: PCV `00 01 00` is 0x000100. -/
theorem test_pc_load :
    after (staged (ram [(2, [0x00#8, 0x01#8, 0x00#8])]) .pcLoad) (fun t => (t.pc, t.phase)) =
      some (0x000100#24, .running .loop) := by decide +kernel

/-- L3: LOAD's zero fill removes what an earlier program left; L2: the byte is at 0. -/
theorem test_load :
    after (commanded (ram [(0x500, [0x99#8])]) (.load [0xAA#8])) (fun t => (t.mem, t.out)) =
      some (ram [(0, [0xAA#8])], [.loaded]) := by decide +kernel

/-- F6: the audio page at 0x123400, first and last byte. -/
theorem test_audio :
    after (staged (ram [(6, [0x12#8, 0x34#8]), (0x123400, [0x01#8]), (0x1234FF, [0x02#8])]) .audio)
      (fun t => (t.abase, t.audio.map (fun f => (f[0]?, f[255]?, f.length)))) =
      some (0x123400#24, some (some 0x01#8, some 0x02#8, 256)) := by decide +kernel

/-! The formats (E9). -/

theorem test_reference_keys : FramePort.inputWord FramePort.referenceKeymap [0] = 0x0001#16 ∧
    FramePort.inputWord FramePort.referenceKeymap [9] = 0x0200#16 ∧
    FramePort.inputWord FramePort.referenceKeymap [10] = 0x0400#16 ∧
    FramePort.inputWord FramePort.referenceKeymap [15] = 0x8000#16 := by decide +kernel

theorem test_colour_cube : FramePort.cubeIndex 0 0 0 = 0 ∧ FramePort.cubeIndex 5 5 5 = 215 ∧
    FramePort.cubeIndex 1 2 3 = 51 := by decide

/-- R56, R57: `.org`, a label, a label with an offset (`L + 8`), `.byte`, and zero in the byte not placed. -/
theorem test_assemble :
    Asm.assemble [.org 0x000001#24, .mark 7, .cpj (.const 2#24) (.label 7 8#24) (.label 7 0#24), .byte [0xEE#8]] =
      some [0x00#8, 0x00#8, 0x00#8, 0x02#8, 0x00#8, 0x00#8, 0x09#8, 0x00#8, 0x00#8, 0x01#8, 0xEE#8] := by decide +kernel

/-! Witnesses: for each obligation with hypotheses, a concrete state and operands that meet them all; for one with several
clauses, one for each clause, at the ends of its range. -/

/-- The memory of S3: `CPJ 000100, 000018, 000020` at 0x10, which replaces its own `next` low byte; `M[000100] = 40`. -/
def ramS3 : Memory :=
  ram [(0x10, [0x00#8, 0x01#8, 0x00#8, 0x00#8, 0x00#8, 0x18#8, 0x00#8, 0x00#8, 0x20#8]), (0x100, [0x40#8])]

/-- The memory of S10: the middle byte of `next` instead. -/
def ramS10 : Memory :=
  ram [(0x10, [0x00#8, 0x01#8, 0x00#8, 0x00#8, 0x00#8, 0x17#8, 0x01#8, 0x00#8, 0x00#8]), (0x100, [0x02#8])]

/-- The memory of E1. -/
def ramE1 : Memory :=
  ram [(2, [0x00#8, 0x00#8, 0x08#8]), (8, [0x00#8, 0x01#8, 0x00#8, 0x00#8, 0x02#8, 0x00#8, 0x00#8, 0x00#8, 0x08#8]),
    (0x100, [0x42#8])]

theorem witness_DecodeAndEncodeAgree : (Instr.cpj 0xFFFFFF#24 0#24 1#24).wellFormed = true ∧
    decode (List.replicate 10 0xFF#8) = .ok (.cpj 0xFFFFFF#24 0xFFFFFF#24 0xFFFFFF#24, [0xFF#8]) := by decide

theorem witness_EveryNineBytesAreAnInstruction :
    9 ≤ (List.replicate 9 0x00#8).length ∧ (List.replicate 8 0x00#8).length < 9 := by decide

/-- The least and the greatest number of bytes; for two bytes, each index and an address beside them. -/
theorem witness_MemWriteIsBigEndianAndMasked : Memory.zeroed.wf = true ∧ 0 ≤ 2 ^ 24 ∧ 2 ^ 24 ≤ 2 ^ 24 ∧
    (0 < 2 ∧ 1 < 2) ∧ (∀ i, i < 2 → 0x000002#24 ≠ maskAddr (0 + i)) := by decide

theorem witness_ReadReturnsTheLatestWrite : ramS3.wf = true := by decide +kernel

theorem witness_OutputPagesLieInsideMemory : 255 < 256 ∧ 65535 < 65536 := by decide

/-- The last instruction of the frame, at S3. -/
theorem witness_StepRunsTheDecodedInstruction :
    let s := { looping ramS3 0x000010#24 with icount := 65535#17 }
    s.phase = .running .loop ∧ s.icount.toNat < 65536 ∧
      decode (s.mem.instrBytesAt s.pc) = .ok (.cpj 0x000100#24 0x000018#24 0x000020#24, []) ∧
      (Instr.cpj 0x000100#24 0x000018#24 0x000020#24).wellFormed = true := by decide +kernel

theorem witness_WithFetchWordRunsThatWord : State.reset.mem.wf = true ∧ 72 ≤ 72 ∧ 0 ≤ 72 := by decide

/-- S1's operands: `dst` 0x000200, and another address. -/
theorem witness_CpjCopiesOneByteThenJumps :
    (looping ramE1 0x000008#24).mem.wf = true ∧ 0x000201#24 ≠ 0x000200#24 := by decide +kernel

/-- S3 and S10: a store into the instruction's own `next` bytes, at offsets 8 and 7. -/
theorem witness_CpjIntoItsOwnBytes : ramS3.wf = true ∧
    fetchInstr ramS3 0x000010#24 = .cpj 0x000100#24 (0x000010#24 + BitVec.ofNat 24 8) 0x000020#24 ∧
    ramS10.wf = true ∧
    fetchInstr ramS10 0x000010#24 = .cpj 0x000100#24 (0x000010#24 + BitVec.ofNat 24 7) 0x010000#24 := by decide +kernel

/-- S13, S4 and S5: offset 6 of `next`, and the instruction's own `src` and `dst`. -/
theorem witness_CpjIntoItsOwnBytes_others :
    (let m := ram [(0x10, [0x00#8, 0x02#8, 0x00#8, 0x00#8, 0x00#8, 0x16#8, 0x00#8, 0x00#8, 0x30#8]), (0x200, [0xFF#8])]
     m.wf = true ∧ fetchInstr m 0x000010#24 = .cpj 0x000200#24 (0x000010#24 + BitVec.ofNat 24 6) 0x000030#24) ∧
    (let m := ram [(0x10, [0x00#8, 0x01#8, 0x00#8, 0x00#8, 0x00#8, 0x10#8, 0x00#8, 0x00#8, 0x30#8]), (0x100, [0x77#8])]
     m.wf = true ∧ fetchInstr m 0x000010#24 = .cpj 0x000100#24 (0x000010#24 + BitVec.ofNat 24 0) 0x000030#24) ∧
    (let m := ram [(0x10, [0x00#8, 0x01#8, 0x00#8, 0x00#8, 0x00#8, 0x13#8, 0x00#8, 0x00#8, 0x30#8]), (0x100, [0x77#8])]
     m.wf = true ∧ fetchInstr m 0x000010#24 = .cpj 0x000100#24 (0x000010#24 + BitVec.ofNat 24 3) 0x000030#24) := by
  decide +kernel

theorem witness_CpjOntoItselfOnlyJumps : (looping ramS3 0x000010#24).mem.wf = true := by decide +kernel

/-- F5's spin at 0x10. -/
theorem witness_SpinOnlyUsesUpTheCount :
    let s := { looping (ram [(0x18, [0x10#8])]) 0x000010#24 with icount := 65535#17 }
    s.mem.wf = true ∧ s.phase = .running .loop ∧ s.icount.toNat < 65536 ∧
      fetchInstr s.mem s.pc = .cpj 0#24 0#24 s.pc := by decide +kernel

/-- S3 for `L + 8`, S10 for `L + 7`. -/
theorem witness_ComputedJumpReplacesOneByteOfTheTarget : ramS3.wf = true ∧ ramS10.wf = true ∧
    fetchInstr ramS3 0x000010#24 = .cpj 0x000100#24 (0x000010#24 + 8#24) 0x000020#24 ∧
    fetchInstr ramS10 0x000010#24 = .cpj 0x000100#24 (0x000010#24 + 7#24) 0x010000#24 := by decide +kernel

/-- P4's I0 and I1, with the counter at 0xFE: `L1` is 0x109, the table 0x300, the two last instructions of a frame. -/
theorem witness_TableLookupCopiesTheEntry :
    let s := { looping (ram [(0x80, [0xFE#8]),
        (0x100, [0x00#8, 0x00#8, 0x80#8, 0x00#8, 0x01#8, 0x0B#8, 0x00#8, 0x01#8, 0x09#8]),
        (0x109, [0x00#8, 0x03#8, 0x00#8, 0x00#8, 0x00#8, 0x80#8, 0x00#8, 0x01#8, 0x12#8]),
        (0x3FE, [0xFF#8])]) 0x000100#24 with icount := 65534#17 }
    s.mem.wf = true ∧ s.phase = .running .loop ∧ s.icount.toNat + 1 < 65536 ∧
      fetchInstr s.mem s.pc = .cpj 0x000080#24 (0x000109#24 + 2#24) 0x000109#24 ∧
      fetchInstr s.mem 0x000109#24 = .cpj 0x000300#24 0x000080#24 0x000112#24 ∧
      (0x000300#24).extractLsb' 0 8 = 0#8 ∧
      0x000109#24 + 2#24 ≠ s.pc + 6#24 ∧ 0x000109#24 + 2#24 ≠ s.pc + 7#24 ∧ 0x000109#24 + 2#24 ≠ s.pc + 8#24 ∧
      0x000109#24 + 2#24 ≠ 0x000300#24 + BitVec.setWidth 24 (s.mem.read 0x000080#24) := by decide +kernel

theorem witness_ResetCommandConstructsAnew :
    (commanded ramE1 .reset).phase = .idle ∧ (commanded ramE1 .reset).host = .reset :: [] := by decide

theorem witness_IdleWithoutACommandStays :
    let s := { State.reset with mem := ramE1 }
    s.phase = .idle ∧ s.host = [] := by decide

/-- L4's length, the greatest legal one, where every address is below it; L1's, the empty ROM, where none is. -/
theorem witness_LoadZeroFillsThenCopiesTheRom :
    (let s := commanded ramE1 (.load (List.replicate (2 ^ 24) 0xFF#8))
     s.phase = .idle ∧ s.host = .load (List.replicate (2 ^ 24) 0xFF#8) :: [] ∧
       (List.replicate (2 ^ 24) 0xFF#8).length ≤ 2 ^ 24 ∧
       (0xFFFFFF#24).toNat < (List.replicate (2 ^ 24) 0xFF#8).length) ∧
    (let s := commanded ramE1 (.load [])
     s.phase = .idle ∧ s.host = .load [] :: [] ∧ ([] : List Byte).length ≤ 2 ^ 24 ∧
       ([] : List Byte).length ≤ (0x000000#24).toNat) := by
  refine ⟨⟨rfl, rfl, ?_, ?_⟩, rfl, rfl, by decide, by decide⟩
  · exact Nat.le_of_eq List.length_replicate
  · rw [List.length_replicate]; decide

/-- L5's length, one byte too many. -/
theorem witness_TooLargeRomChangesNothing :
    let s := commanded ramE1 (.load (List.replicate (2 ^ 24 + 1) 0x00#8))
    s.phase = .idle ∧ s.host = .load (List.replicate (2 ^ 24 + 1) 0x00#8) :: [] ∧
      2 ^ 24 < (List.replicate (2 ^ 24 + 1) 0x00#8).length := by
  refine ⟨rfl, rfl, ?_⟩
  rw [List.length_replicate]
  exact Nat.lt_succ_self _

theorem witness_RunningTakesNoCommand : (staged ramE1 .video).phase ≠ .idle := by decide

/-- One step from Idle, one from Running. -/
theorem witness_PhaseChangesOnlyByRunAndVideoDelivery :
    (step (commanded ramE1 (.run 0#16)) = .next (acceptRun 0#16 { State.reset with mem := ramE1 }) ∧
      (commanded ramE1 (.run 0#16)).phase = .idle) ∧
    (step (staged ramE1 .deliverVideo) = .next (deliverVideo (staged ramE1 .deliverVideo)) ∧
      (staged ramE1 .deliverVideo).phase ≠ .idle) := ⟨⟨rfl, rfl⟩, rfl, by decide⟩

/-- For every statement of a RUN from Idle: E1's memory is canonical, the core Idle, a RUN waiting. -/
theorem witness_run_waiting : (commanded ramE1 (.run 0xABCD#16)).mem.wf = true ∧
    (commanded ramE1 (.run 0xABCD#16)).phase = .idle ∧
    (commanded ramE1 (.run 0xABCD#16)).host = .run 0xABCD#16 :: [] := by decide +kernel

/-- RunLatchesItsArgumentFirst: an address beside the two. -/
theorem witness_RunLatchesItsArgumentFirst : 2#24 ≠ 0#24 ∧ 2#24 ≠ 1#24 := by decide

theorem witness_LoopExecutesExactly65536Instructions : (looping ramE1 0x000008#24).phase = .running .loop ∧
    (looping ramE1 0x000008#24).icount = 0#17 ∧ 65536 ≤ 65536 := by decide

/-- For AudioFrameIsTheSelectedPage and FramesAreOneSnapshotOfTheFinalMemory. -/
theorem witness_AudioFrameIsTheSelectedPage : (staged ramE1 .audio).phase = .running .audio := by decide

theorem witness_VideoFrameIsTheSelectedPage : (staged ramE1 .video).phase = .running .video := by decide

theorem witness_AudioIsDeliveredBeforeVideo :
    let s := { staged ramE1 .deliverAudio with audio := some [0x01#8], video := some [0x02#8] }
    s.phase = .running .deliverAudio ∧ s.audio = some [0x01#8] ∧ s.video = some [0x02#8] := by decide

/-- Two states with one memory and one input and everything else different. -/
theorem witness_FrameDependsOnMemoryAndInputOnly :
    let s := commanded ramE1 (.run 0xABCD#16)
    let s' := { s with pc := 0x123456#24, icount := 5#17, inlatch := 1#16, host := .run 0xABCD#16 :: [.run 1#16] }
    s.phase = .idle ∧ s'.phase = .idle ∧ s.host = .run 0xABCD#16 :: [] ∧ s'.host = .run 0xABCD#16 :: [.run 1#16] ∧
      s.mem = s'.mem := ⟨rfl, rfl, rfl, rfl, rfl⟩

/-- A session of two frames; and of none. -/
theorem witness_SessionCarriesOnlyMemoryBetweenFrames :
    (let s := { State.reset with mem := ramE1, host := [.run 1#16, .run 2#16, .reset] }
     s.phase = .idle ∧ s.host = [1#16, 2#16].map .run ++ [.reset]) ∧
    (State.reset.phase = .idle ∧ State.reset.host = ([] : List InputWord).map .run ++ []) := by decide

/-- F3's start. -/
theorem witness_RunOnZeroedMemory :
    let s := commanded Memory.zeroed (.run 0xABCD#16)
    s.mem = Memory.zeroed ∧ s.phase = .idle ∧ s.host = .run 0xABCD#16 :: [] := by decide

/-- EveryStepKeepsTheInvariant: the invariant holds of a state that is about to latch its input, and it steps. -/
theorem witness_EveryStepKeepsTheInvariant :
    (staged ramE1 .inputLatch).Inv ∧ step (staged ramE1 .inputLatch) = .next (latchInput (staged ramE1 .inputLatch)) :=
  ⟨⟨by decide +kernel, by decide, by decide, by simp [staged, State.reset], by simp [staged, State.reset],
    by simp [staged, State.reset], trivial⟩, rfl⟩

/-- It holds too where it says most, on the first instruction of a RUN over zeroed memory. -/
theorem witness_EveryStepKeepsTheInvariant_loop : (looping Memory.zeroed 0#24).Inv :=
  ⟨by decide, by decide, by decide, by simp [looping, State.reset], by simp [looping, State.reset],
    by simp [looping, State.reset], by decide, fun _ => ⟨by unfold State.InputLatched; decide, by decide⟩⟩

/-- A byte that an instruction changes (S3), one that the latch changes, one that LOAD and one that reset changes. -/
theorem witness_OnlyStoresLatchLoadAndResetWriteMemory :
    ramS3.wf = true ∧ ramE1.wf = true ∧
    after (looping ramS3 0x000010#24) (fun t => decide (t.mem.read 0x000018#24 ≠ ramS3.read 0x000018#24)) = some true ∧
    after { staged ramE1 .inputLatch with inlatch := 0xABCD#16 }
      (fun t => decide (t.mem.read 1#24 ≠ ramE1.read 1#24)) = some true ∧
    after (commanded ramE1 (.load [])) (fun t => decide (t.mem.read 4#24 ≠ ramE1.read 4#24)) = some true ∧
    after (commanded ramE1 .reset) (fun t => decide (t.mem.read 4#24 ≠ ramE1.read 4#24)) = some true := by decide +kernel

/-- A step that changes `pc` and `icount`, one that changes `inlatch`, one `abase`'s frame, one `vbase`'s, and a reset. -/
theorem witness_LatchesChangeOnlyInTheirOwnSteps :
    after (looping ramS3 0x000010#24) (fun t => decide (t.pc ≠ 0x000010#24 ∧ t.icount ≠ 0#17)) = some true ∧
    after (commanded ramE1 (.run 1#16)) (fun t => decide (t.inlatch ≠ 0#16)) = some true ∧
    after (staged ramE1 .audio) (fun t => t.audio.isSome) = some true ∧
    step (staged ramE1 .video) = .next (extractVideo (staged ramE1 .video)) ∧
    after { commanded ramE1 .reset with pc := 1#24 } (fun t => decide (t.pc ≠ 1#24)) = some true := by
  refine ⟨by decide +kernel, by decide +kernel, by decide +kernel, rfl, by decide +kernel⟩

/-- A step of RUN, a reset, and in Idle an access: the first cell LOAD fills. -/
theorem witness_PortAccessesInOrderAreTheStep :
    (let s := staged ramE1 .pcLoad
     s.mem.wf = true ∧ step s = .next (loadPc s) ∧ ¬ (s.phase = .idle ∧ ∃ rest, s.host = .reset :: rest)) ∧
    (let s := commanded ramE1 .reset
     s.mem.wf = true ∧ step s = .next (idleStep s) ∧ s.phase = .idle ∧ s.host = .reset :: []) ∧
    (let s := commanded ramE1 (.load [])
     s.mem.wf = true ∧ step s = .next (idleStep s) ∧ s.phase = .idle ∧
       ⟨.load, .write, maskAddr 0, 0x00#8⟩ ∈ Port.ofStep s) := by
  refine ⟨⟨by decide +kernel, rfl, by simp [staged]⟩, ⟨by decide +kernel, rfl, rfl, rfl⟩, by decide +kernel, rfl, rfl, ?_⟩
  refine List.mem_append_left _ (List.mem_map.2 ⟨0, List.mem_range.2 ?_, rfl⟩)
  decide

/-- A key of each byte, pressed and not. -/
theorem witness_ReferenceKeysSetTheirInputBits : Memory.zeroed.wf = true ∧ (0 : Fin 16).val < 8 ∧ ¬ (15 : Fin 16).val < 8 ∧
    (15 : Fin 16) ∈ [(15 : Fin 16)] ∧ (0 : Fin 16) ∉ [(15 : Fin 16)] := by decide

theorem witness_PixelValuesIndexTheColourCube : 216 ≤ (0xD8#8).toNat ∧ ¬ 216 ≤ (0xD7#8).toNat := by decide

/-- The last address with room for an instruction. -/
theorem witness_AssembledSpinIsASelfLoop : (0xFFFFF7#24).toNat + 9 ≤ 2 ^ 24 := by decide

end Sys2Proof.Tests
end

section
/-! PROOFS. The state family: the invariant at reset and along every step, where each latch changes, the output pages,
sessions of RUNs, and the input bytes under the reference mapping. -/

namespace Sys2Proof.Machine

/-! The output pages (R18, R19, R23). -/

namespace Memory

theorem audioBase_toNat (m : Memory) :
    m.audioBase.toNat = (m.read 6#24).toNat * 65536 + (m.read 7#24).toNat * 256 := by
  simp [audioBase_eq, be24_toNat]

theorem videoBase_toNat (m : Memory) : m.videoBase.toNat = (m.read 5#24).toNat * 65536 := by
  simp [videoBase_eq, be24_toNat]

theorem audioBase_aligned (m : Memory) : m.audioBase.extractLsb' 0 8 = 0#8 := by
  rw [audioBase_eq, be24_lo]

theorem videoBase_aligned (m : Memory) : m.videoBase.extractLsb' 0 16 = 0#16 := by
  apply BitVec.eq_of_toNat_eq
  simp only [BitVec.extractLsb'_toNat, videoBase_toNat, BitVec.toNat_ofNat, Nat.shiftRight_zero]
  omega

end Memory

/-- Settles O11: a page base is its selector bytes followed by zeros, so its page ends below 2^24. -/
theorem outputPagesLieInsideMemory : Obligations.OutputPagesLieInsideMemory := by
  intro m
  have h5 := (m.read 5#24).isLt
  have h6 := (m.read 6#24).isLt
  have h7 := (m.read 7#24).isLt
  rw [m.audioBase_toNat, m.videoBase_toNat]
  exact ⟨rfl, rfl, fun i hi => by omega, fun i hi => by omega⟩

/-! The stage's part of the invariant, one equation a phase. -/

namespace State

variable {s : State}

theorem stageInv_of_idle (h : s.phase = .idle) : s.StageInv := by simp [StageInv, h]

theorem stageInv_of_inputLatch (h : s.phase = .running .inputLatch) : s.StageInv := by simp [StageInv, h]

theorem stageInv_pcLoad (h : s.phase = .running .pcLoad) : s.StageInv ↔ s.InputLatched := by simp [StageInv, h]

theorem stageInv_loop (h : s.phase = .running .loop) :
    s.StageInv ↔ s.icount.toNat ≤ Config.instrPerFrame ∧
      (s.icount = 0#17 → s.InputLatched ∧ s.pc = s.mem.pcVector) := by simp [StageInv, h]

theorem stageInv_audio (h : s.phase = .running .audio) :
    s.StageInv ↔ s.icount.toNat = Config.instrPerFrame := by simp [StageInv, h]

theorem stageInv_video (h : s.phase = .running .video) :
    s.StageInv ↔ s.icount.toNat = Config.instrPerFrame ∧ s.AudioExtracted := by simp [StageInv, h]

theorem stageInv_deliverAudio (h : s.phase = .running .deliverAudio) :
    s.StageInv ↔ s.icount.toNat = Config.instrPerFrame ∧ s.AudioExtracted ∧ s.VideoExtracted := by simp [StageInv, h]

theorem stageInv_deliverVideo (h : s.phase = .running .deliverVideo) :
    s.StageInv ↔ s.icount.toNat = Config.instrPerFrame ∧ s.AudioExtracted ∧ s.VideoExtracted := by simp [StageInv, h]

end State

/-! The invariant, step by step. -/

/-- Settles O40: memory is empty, no frame is held or delivered, and Idle asks nothing of its stage. -/
theorem invariantHoldsAtReset : Obligations.InvariantHoldsAtReset where
  memWf := Memory.wf_zeroed
  abaseAligned := rfl
  vbaseAligned := rfl
  audioSized := by simp
  videoSized := by simp
  outSized := by simp
  stage := State.stageInv_of_idle rfl

/-- After the latch step the two INPUT bytes hold the word (R72). -/
theorem latchInput_inputLatched {s : State} (h : s.mem.wf = true) : (latchInput s).InputLatched := by
  simp [State.InputLatched, Memory.read_latched h]

/-- Counting one more instruction of the frame does not overflow the 17 bits (R21). -/
theorem icount_succ_toNat {n : BitVec 17} (h : n.toNat < Config.instrPerFrame) : (n + 1#17).toNat = n.toNat + 1 := by
  rw [show Config.instrPerFrame = 65536 from rfl] at h
  rw [BitVec.toNat_add, BitVec.toNat_ofNat]
  omega

section

open State

variable {s : State} (h : s.Inv)
include h

theorem inv_idleStep (hp : s.phase = .idle) : (idleStep s).Inv := by
  have out_status : ∀ o : Output, o.Sized → ∀ o' ∈ s.out ++ [o], o'.Sized := fun o ho =>
    List.forall_mem_append.2 ⟨h.outSized, by simpa using ho⟩
  obtain ⟨-, e⟩ | ⟨rom, rest, -, -, e⟩ | ⟨rom, rest, -, -, e⟩ | ⟨input, rest, -, e⟩ | ⟨rest, -, e⟩ :=
    idleStep_cases s <;> rw [e]
  · exact h
  · exact { h with memWf := Memory.wf_ofRom rom, outSized := out_status .loaded trivial, stage := stageInv_of_idle hp }
  · exact { h with outSized := out_status .romTooLarge trivial, stage := stageInv_of_idle hp }
  · exact { h with stage := stageInv_of_inputLatch rfl }
  · exact { invariantHoldsAtReset with outSized := h.outSized, stage := stageInv_of_idle rfl }

theorem inv_latchInput : (latchInput s).Inv :=
  { h with
    memWf := Memory.wf_memWrite h.memWf _ _ _
    stage := (stageInv_pcLoad rfl).2 (latchInput_inputLatched h.memWf) }

theorem inv_loadPc (hp : s.phase = .running .pcLoad) : (loadPc s).Inv :=
  { h with
    stage := (stageInv_loop rfl).2 ⟨Nat.zero_le _, fun _ => ⟨(stageInv_pcLoad hp).1 h.stage, rfl⟩⟩ }

/-- The count after an instruction is neither 0 nor past 65,536. -/
theorem inv_afterInstr (hp : s.phase = .running .loop) (hc : s.icount.toNat < Config.instrPerFrame) :
    (afterInstr s).Inv :=
  have count : (s.icount + 1#17).toNat = s.icount.toNat + 1 := icount_succ_toNat hc
  { h with
    memWf := Memory.wf_copyByte h.memWf _ _
    stage := (stageInv_loop (s := afterInstr s) hp).2
      ⟨count.trans_le hc, fun zero => by simp [show s.icount + 1#17 = 0#17 from zero] at count⟩ }

theorem inv_leaveLoop (hp : s.phase = .running .loop) (hc : ¬ s.icount.toNat < Config.instrPerFrame) :
    (leaveLoop s).Inv :=
  { h with
    stage := (stageInv_audio rfl).2 (Nat.le_antisymm ((stageInv_loop hp).1 h.stage).1 (Nat.le_of_not_lt hc)) }

theorem inv_extractAudio (hp : s.phase = .running .audio) : (extractAudio s).Inv :=
  { h with
    abaseAligned := s.mem.audioBase_aligned
    audioSized := by simp
    stage := (stageInv_video rfl).2 ⟨(stageInv_audio hp).1 h.stage, rfl, rfl⟩ }

theorem inv_extractVideo (hp : s.phase = .running .video) : (extractVideo s).Inv :=
  have ⟨count, audio⟩ := (stageInv_video hp).1 h.stage
  { h with
    vbaseAligned := s.mem.videoBase_aligned
    videoSized := by simp
    stage := (stageInv_deliverAudio rfl).2 ⟨count, audio, rfl, rfl⟩ }

theorem inv_deliverAudio (hp : s.phase = .running .deliverAudio) : (deliverAudio s).Inv :=
  { h with
    outSized := List.forall_mem_append.2 ⟨h.outSized, by simpa [Output.Sized] using h.audioSized⟩
    stage := (stageInv_deliverVideo rfl).2 ((stageInv_deliverAudio hp).1 h.stage) }

theorem inv_deliverVideo : (deliverVideo s).Inv :=
  { h with
    outSized := List.forall_mem_append.2 ⟨h.outSized, by simpa [Output.Sized] using h.videoSized⟩
    stage := stageInv_of_idle rfl }

end

/-- Settles O41, by the lemma of each step that `step_cases` lists. -/
theorem everyStepKeepsTheInvariant : Obligations.EveryStepKeepsTheInvariant := by
  intro s t h hstep
  obtain ⟨hp, rfl⟩ | ⟨-, rfl⟩ | ⟨hp, rfl⟩ | ⟨hp, hc, rfl⟩ | ⟨hp, hc, rfl⟩ | ⟨hp, rfl⟩ | ⟨hp, rfl⟩ | ⟨hp, rfl⟩ |
    ⟨-, rfl⟩ := step_cases hstep
  · exact inv_idleStep h hp
  · exact inv_latchInput h
  · exact inv_loadPc h hp
  · exact inv_afterInstr h hp hc
  · exact inv_leaveLoop h hp hc
  · exact inv_extractAudio h hp
  · exact inv_extractVideo h hp
  · exact inv_deliverAudio h hp
  · exact inv_deliverVideo h

/-! Where each latch and output changes. -/

/-- A step in Idle keeps what was handed out; only a reset changes a latch other than `inlatch`, and only a RUN changes
that one (R23, R27). -/
theorem idleStep_latches (s : State) :
    (∃ more, (idleStep s).out = s.out ++ more) ∧
    ((∃ rest, s.host = .reset :: rest) ∨
      ((idleStep s).pc = s.pc ∧ (idleStep s).icount = s.icount ∧ (idleStep s).abase = s.abase ∧
        (idleStep s).audio = s.audio ∧ (idleStep s).vbase = s.vbase ∧ (idleStep s).video = s.video ∧
        ((idleStep s).inlatch ≠ s.inlatch → ∃ input rest, s.host = .run input :: rest))) := by
  obtain ⟨-, e⟩ | ⟨rom, rest, -, -, e⟩ | ⟨rom, rest, -, -, e⟩ | ⟨input, rest, hh, e⟩ | ⟨rest, hh, e⟩ :=
    idleStep_cases s <;> rw [e]
  · simp
  · simp
  · simp
  · simp [hh]
  · simp [hh]

/-- Settles O43: in Idle by `idleStep_latches`, while Running by the fields of the one step that is taken. -/
theorem latchesChangeOnlyInTheirOwnSteps : Obligations.LatchesChangeOnlyInTheirOwnSteps := by
  intro s t hstep
  obtain ⟨hp, rfl⟩ | ⟨hp, rfl⟩ | ⟨hp, rfl⟩ | ⟨hp, hc, rfl⟩ | ⟨hp, hc, rfl⟩ | ⟨hp, rfl⟩ | ⟨hp, rfl⟩ | ⟨hp, rfl⟩ |
    ⟨hp, rfl⟩ := step_cases hstep
  · obtain ⟨out, ⟨rest, hh⟩ | ⟨pc, icount, abase, audio, vbase, video, inlatch⟩⟩ := idleStep_latches s
    · exact ⟨out, .inl ⟨rest, hp, hh⟩⟩
    · refine ⟨out, .inr ⟨?_, fun changed => ⟨hp, inlatch changed⟩, ?_, ?_⟩⟩ <;>
        simp [pc, icount, abase, audio, vbase, video]
  · simp
  · simp [hp]
  · simp [hp, show s.icount.toNat < 65536 from hc]
  · simp
  · simp [hp]
  · simp [hp]
  · simp
  · simp

/-! The input bytes (R16). -/

namespace FramePort

/-- A bit of the word polled from a list of keys is set when it was set before or some key of the list maps to it. -/
theorem foldl_setKey_getLsbD (keymap : Fin 16 → Fin 16) (active : List (Fin 16)) (w : InputWord) (i : Fin 16) :
    (active.foldl (fun w k => w ||| (1#16 <<< (keymap k).val)) w).getLsbD i =
      (w.getLsbD i || decide (∃ k ∈ active, keymap k = i)) := by
  induction active generalizing w with
  | nil => simp
  | cons k active ih =>
    have bit : (1#16 <<< (keymap k).val).getLsbD i = decide (keymap k = i) := by
      change (BitVec.twoPow 16 (keymap k)).getLsbD i = _
      simp [Fin.ext_iff, eq_comm]
    rw [List.foldl_cons, ih, BitVec.getLsbD_or, bit]
    simp [Bool.or_assoc]

/-- Bit `i` of the polled word is set when an active key maps to it (R16, R82). -/
theorem inputWord_getLsbD (keymap : Fin 16 → Fin 16) (active : List (Fin 16)) (i : Fin 16) :
    (inputWord keymap active).getLsbD i = decide (∃ k ∈ active, keymap k = i) := by
  rw [inputWord, foldl_setKey_getLsbD]
  simp

end FramePort

/-- Settles O47: the latched bytes are the halves of the word, and under the reference mapping bit `k` is key `k`. -/
theorem referenceKeysSetTheirInputBits : Obligations.ReferenceKeysSetTheirInputBits := by
  intro m active k hm
  have bit : (FramePort.inputWord FramePort.referenceKeymap active).getLsbD k = decide (k ∈ active) := by
    rw [FramePort.inputWord_getLsbD]
    simp [FramePort.referenceKeymap]
  rw [Memory.read_latched hm, ← bit]
  by_cases hk : k.val < 8
  · simp [hk, Nat.mod_eq_of_lt]
  · have := k.isLt
    simp [hk, Nat.mod_lt, show 8 + k.val % 8 = k.val by omega]

/-- Settles O22: the reset state writes these values out (R26). -/
theorem resetLatchValues : Obligations.ResetLatchValues :=
  ⟨State.reset_pc, State.reset_icount, State.reset_inlatch, State.reset_abase, State.reset_vbase,
    State.reset_audio, State.reset_video, State.reset_host, State.reset_out⟩

/-! Whole frames and sessions (R71, R85). -/

/-- The state after `n` instructions of the loop. -/
def afterInstrs (n : Nat) (s : State) : State :=
  ((s.setMem (instrsOn n (s.mem, s.pc)).1).setPc (instrsOn n (s.mem, s.pc)).2).setIcount (s.icount + BitVec.ofNat 17 n)

theorem afterInstr_afterInstrs (n : Nat) (s : State) : afterInstr (afterInstrs n s) = afterInstrs (n + 1) s := by
  apply State.ext_fields <;> simp [afterInstrs, instrsOn_succ, cpjOn, BitVec.add_assoc, BitVec.ofNat_add]

/-- Inside the loop, `n` steps that the count allows are `n` instructions (R74). -/
theorem runSteps_loop {s : State} (hp : s.phase = .running .loop) (n : Nat)
    (hn : s.icount.toNat + n ≤ Config.instrPerFrame) : runSteps n s = .next (afterInstrs n s) := by
  induction n with
  | zero => simp [afterInstrs, instrsOn, State.setMem, State.setPc, State.setIcount]
  | succ n ih =>
    have count : (afterInstrs n s).icount.toNat < Config.instrPerFrame := by
      rw [show Config.instrPerFrame = 65536 from rfl] at *
      simp only [afterInstrs, State.setIcount_icount, BitVec.toNat_add, BitVec.toNat_ofNat]
      omega
    rw [run_succ (ih (by omega)), step_instr (s := afterInstrs n s) hp count, afterInstr_afterInstrs]

/-- The loop of the frame that a RUN accepted in `s` starts, after `n` instructions (R72, R73, R74). -/
def frameLoop (s : State) (input : InputWord) (rest : List HostCmd) (n : Nat) : State :=
  afterInstrs n (loadPc (latchInput (acceptRun input (s.setHost rest))))

/-- The fields of that loop: memory and `pc` are the frame function's, the rest is as it was before the RUN. -/
theorem frameLoop_eq (s : State) (input : InputWord) (rest : List HostCmd) (n : Nat) :
    frameLoop s input rest n =
      { s with
        mem := (instrsOn n (frameStart s.mem input)).1
        pc := (instrsOn n (frameStart s.mem input)).2
        icount := BitVec.ofNat 17 n
        phase := .running .loop
        inlatch := input
        host := rest } := by
  apply State.ext_fields <;> simp [frameLoop, afterInstrs, acceptRun, frameStart]

/-- From Idle with a RUN next: acceptance, the input latch and the load of `pc`, then `n` instructions. -/
theorem runSteps_frameLoop {s : State} {input : InputWord} {rest : List HostCmd} (hp : s.phase = .idle)
    (hh : s.host = .run input :: rest) {n : Nat} (hn : n ≤ Config.instrPerFrame) :
    runSteps (3 + n) s = .next (frameLoop s input rest n) := by
  have taken : idleStep s = acceptRun input (s.setHost rest) := by simp [idleStep, hh, accept]
  have start : runSteps 3 s = .next (loadPc (latchInput (acceptRun input (s.setHost rest)))) := by
    rw [run_step (step_idle hp), taken, run_step (step_inputLatch rfl), run_step (step_pcLoad rfl), runSteps_zero]
  rw [run_add start, runSteps_loop rfl n (by simpa using hn), frameLoop]

/-- Once the count is used up: out of the loop, the two extractions, the two deliveries, and Idle (R75 to R78). -/
theorem runSteps_frameEnd {s : State} (hp : s.phase = .running .loop) (hc : s.icount.toNat = Config.instrPerFrame) :
    runSteps 5 s = .next
      { s with
        phase := .idle
        abase := s.mem.audioBase
        vbase := s.mem.videoBase
        audio := some (extractFrames (s.mem, s.pc)).audio
        video := some (extractFrames (s.mem, s.pc)).video
        out := s.out ++ [.audio (extractFrames (s.mem, s.pc)).audio, .video (extractFrames (s.mem, s.pc)).video] } := by
  rw [run_step (step_leaveLoop hp (by omega)), run_step (step_audio rfl), run_step (step_video rfl),
    run_step (step_deliverAudio rfl), run_step (step_deliverVideo rfl), runSteps_zero]
  refine congrArg Host.Outcome.next ?_
  apply State.ext_fields <;> simp [extractFrames]

/-- The Idle state that a RUN accepted in `s` ends in, where the frame function gives `r` (R71; log 6). -/
def afterFrame (s : State) (input : InputWord) (rest : List HostCmd) (r : FrameResult) : State where
  mem := r.mem
  pc := r.pc
  icount := 65536#17
  phase := .idle
  inlatch := input
  abase := r.mem.audioBase
  vbase := r.mem.videoBase
  audio := some r.audio
  video := some r.video
  host := rest
  out := s.out ++ [.audio r.audio, .video r.video]

@[simp] theorem afterFrame_mem (s : State) (input : InputWord) (rest : List HostCmd) (r : FrameResult) :
    (afterFrame s input rest r).mem = r.mem := rfl

@[simp] theorem afterFrame_out (s : State) (input : InputWord) (rest : List HostCmd) (r : FrameResult) :
    (afterFrame s input rest r).out = s.out ++ [.audio r.audio, .video r.video] := rfl

/-- One RUN, start to end, is the frame function (R71). -/
theorem runSteps_frame {s : State} {input : InputWord} {rest : List HostCmd} (hp : s.phase = .idle)
    (hh : s.host = .run input :: rest) :
    runSteps frameSteps s = .next (afterFrame s input rest (runFrame s.mem input)) := by
  have count : (BitVec.ofNat 17 Config.instrPerFrame).toNat = Config.instrPerFrame := by decide
  rw [show frameSteps = 3 + Config.instrPerFrame + 5 by unfold frameSteps; omega,
    run_add (runSteps_frameLoop hp hh le_rfl), frameLoop_eq, runSteps_frameEnd rfl count, runFrame]
  generalize instrsOn Config.instrPerFrame (frameStart s.mem input) = c
  rfl

theorem session_cons (input : InputWord) (inputs : List InputWord) (m : Memory) :
    session (input :: inputs) m =
      ((session inputs (runFrame m input).mem).1,
        [.audio (runFrame m input).audio, .video (runFrame m input).video] ++
          (session inputs (runFrame m input).mem).2) := rfl

/-- Settles O38, by induction on the inputs: each RUN is the frame function (`runSteps_frame`), and what it leaves is an
Idle state with the later RUNs next. -/
theorem sessionCarriesOnlyMemoryBetweenFrames : Obligations.SessionCarriesOnlyMemoryBetweenFrames := by
  intro s inputs rest
  induction inputs generalizing s with
  | nil => exact fun hp hh => ⟨s, by simp, hp, hh, rfl, by simp [session]⟩
  | cons input inputs ih =>
    intro hp hh
    have head : s.host = .run input :: (inputs.map .run ++ rest) := hh
    obtain ⟨t, run, idle, host, mem, out⟩ :=
      ih (afterFrame s input (inputs.map .run ++ rest) (runFrame s.mem input)) rfl rfl
    refine ⟨t, ?_, idle, host, ?_, ?_⟩
    · rw [List.length_cons, Nat.succ_mul, Nat.add_comm _ frameSteps, run_add (runSteps_frame hp head), run]
    · rw [mem, afterFrame_mem, session_cons]
    · rw [out, afterFrame_out, afterFrame_mem, session_cons, List.append_assoc]

end Sys2Proof.Machine
end

section
/-! PROOFS. The memory family: the primitives byte by byte, the mask, who writes memory, and the port: its accesses served
in order are the step, and how many of them one RUN makes. -/

namespace Sys2Proof.Machine

/-! The mask (R33). -/

/-- An address 2^24 higher presents the same byte addresses, at every offset. -/
theorem maskAddr_wrap_add (a i : Nat) : maskAddr (a + 2 ^ 24 + i) = maskAddr (a + i) := by
  rw [Nat.add_right_comm, maskAddr_wrap]

/-- Settles O9: every primitive presents its addresses through `maskAddr`, whose period is 2^24. -/
theorem everyAccessIsMasked : Obligations.EveryAccessIsMasked := by
  refine ⟨fun a => ?_, fun m a n => ?_, fun m a n => ?_, fun m a n v => ?_⟩
  · rw [maskAddr_toNat, show 0xFFFFFF = 2 ^ 24 - 1 from rfl, Nat.and_two_pow_sub_one_eq_mod]
  · simp only [Memory.memRead, maskAddr_wrap_add]
  · simp only [Memory.copyRange, maskAddr_wrap_add]
  · simp only [Memory.memWrite, maskAddr_wrap_add]

/-! The primitives (R32, R34, R38). -/

/-- Settles O7: the three lengths are `memRead_one`, `memRead_two` and `memRead_three`, and a concatenation of bytes is
bounded by its width. -/
theorem memReadIsBigEndianAndMasked : Obligations.MemReadIsBigEndianAndMasked := by
  intro m addr
  have two : m.memRead addr 2 = (m.read (maskAddr addr) ++ m.read (maskAddr (addr + 1)) : BitVec 16).toNat := by
    rw [m.memRead_two, append_bytes_toNat]
  refine ⟨m.memRead_one addr, two, m.memRead_three addr, ?_, ?_, ?_⟩
  · rw [m.memRead_one]; exact Nat.le_of_lt_succ (BitVec.isLt _)
  · rw [two]; exact Nat.le_of_lt_succ (BitVec.isLt _)
  · rw [m.memRead_three]; exact Nat.le_of_lt_succ (BitVec.isLt _)

namespace Memory

/-- One more byte stored at the end of a list goes to the masked address after the others. -/
theorem storeBytes_concat (m : Memory) (a : Nat) (bs : List Byte) (b : Byte) :
    m.storeBytes a (bs ++ [b]) = (m.storeBytes a bs).write (maskAddr (a + bs.length)) b := by
  induction bs generalizing m a with
  | nil => rfl
  | cons c bs ih =>
    rw [List.cons_append, storeBytes, ih, storeBytes, List.length_cons, Nat.add_assoc a, Nat.add_comm 1]

/-- Bytes written one by one at `addr + i` are the store of their list. -/
theorem storeBytes_map_range (m : Memory) (addr n : Nat) (byte : Nat → Byte) :
    m.storeBytes addr ((List.range n).map byte) =
      (List.range n).foldl (fun m i => m.write (maskAddr (addr + i)) (byte i)) m := by
  induction n with
  | zero => rfl
  | succ n ih => simp [List.range_succ, storeBytes_concat, ih]

/-- `MemWrite` is the store of the value's bytes, the most significant first (R34). -/
theorem memWrite_eq_storeBytes (m : Memory) (addr n v : Nat) :
    m.memWrite addr n v = m.storeBytes addr ((List.range n).map (byteOf n v)) :=
  (storeBytes_map_range ..).symm

theorem byteOf_eq_div (n v i : Nat) : byteOf n v i = BitVec.ofNat 8 (v / 2 ^ (8 * (n - i - 1))) := by
  rw [byteOf, Nat.shiftRight_eq_div_pow, Nat.sub_right_comm]

end Memory

/-- Settles O8: `MemWrite` is a store of bytes, whose reads `read_storeBytes_masked` and `read_storeBytes_other` give. -/
theorem memWriteIsBigEndianAndMasked : Obligations.MemWriteIsBigEndianAndMasked := by
  intro m addr n v hm hn
  refine ⟨Memory.wf_memWrite hm _ _ _, fun i hi => ?_, fun a other => ?_⟩
  · rw [m.memWrite_eq_storeBytes, Memory.read_storeBytes_masked hm _ _ (by simpa using hn) i (by simpa using hi)]
    simp [Memory.byteOf_eq_div]
  · rw [m.memWrite_eq_storeBytes, Memory.read_storeBytes_other hm]
    simpa using other

/-- Settles O10, by induction on the writes: a later write to the cell hides the first one, which hides the memory. -/
theorem readReturnsTheLatestWrite : Obligations.ReadReturnsTheLatestWrite := by
  intro m ws a hm
  induction ws generalizing m with
  | nil => rfl
  | cons w ws ih =>
    rw [List.foldl_cons, ih _ (Memory.wf_write hm _ _), Memory.read_write hm, List.reverse_cons, List.find?_append]
    cases ws.reverse.find? (fun w => w.1 = a) with
    | some later => rfl
    | none =>
      by_cases ha : a = w.1
      · simp [ha]
      · simp [ha, Ne.symm ha]

/-! Who writes memory (R34, R45). -/

/-- In Idle only a LOAD that succeeds and a reset replace memory. -/
theorem idleStep_mem (s : State) :
    (idleStep s).mem = s.mem ∨ (∃ rom rest, s.host = .load rom :: rest ∧ rom.length ≤ Config.romMax) ∨
      (∃ rest, s.host = .reset :: rest) := by
  obtain ⟨-, e⟩ | ⟨rom, rest, hh, hl, -⟩ | ⟨rom, rest, -, -, e⟩ | ⟨input, rest, -, e⟩ | ⟨rest, hh, -⟩ :=
    idleStep_cases s
  · exact .inl (by rw [e])
  · exact .inr (.inl ⟨rom, rest, hh, hl⟩)
  · exact .inl (by simp [e])
  · exact .inl (by simp [e])
  · exact .inr (.inr ⟨rest, hh⟩)

/-- Settles O42: of the steps, only Idle's, the latch and the instruction leave another memory, and the last two change
only the cells they name (`read_latched`, `read_copyByte`). -/
theorem onlyStoresLatchLoadAndResetWriteMemory : Obligations.OnlyStoresLatchLoadAndResetWriteMemory := by
  intro s t a hm hstep changed
  obtain ⟨hp, rfl⟩ | ⟨hp, rfl⟩ | ⟨-, rfl⟩ | ⟨hp, hc, rfl⟩ | ⟨-, -, rfl⟩ | ⟨-, rfl⟩ | ⟨-, rfl⟩ | ⟨-, rfl⟩ |
    ⟨-, rfl⟩ := step_cases hstep
  · obtain same | load | reset := idleStep_mem s
    · exact absurd (by rw [same]) changed
    · exact .inr (.inr (.inl ⟨hp, load⟩))
    · exact .inr (.inr (.inr ⟨hp, reset⟩))
  · refine .inr (.inl ⟨hp, ?_⟩)
    by_contra other
    obtain ⟨h0, h1⟩ := not_or.1 other
    exact changed (by simp [Memory.read_latched hm, h0, h1])
  · exact absurd rfl changed
  · refine .inl ⟨hp, hc, ?_⟩
    by_contra other
    exact changed (by simp [Memory.read_copyByte hm, other])
  · exact absurd rfl changed
  · exact absurd rfl changed
  · exact absurd rfl changed
  · exact absurd rfl changed
  · exact absurd rfl changed

/-! The port serves each step (R38, R40, R42). -/

namespace Port

theorem ofStep_idle_nil {s : State} (hp : s.phase = .idle) (hh : s.host = []) : ofStep s = [] := by
  simp [ofStep, hp, hh]

theorem ofStep_idle_cons {s : State} {c : HostCmd} {rest : List HostCmd} (hp : s.phase = .idle)
    (hh : s.host = c :: rest) : ofStep s = ofCommand c := by simp [ofStep, hp, hh]

/-- In Idle every access is LOAD's (R40). -/
theorem ofStep_idle_requester {s : State} (hp : s.phase = .idle) {p : PortAccess} (h : p ∈ ofStep s) :
    p.requester = .load := by
  cases hh : s.host with
  | nil => simp [ofStep_idle_nil hp hh] at h
  | cons c rest => exact ofCommand_requester (by rwa [ofStep_idle_cons hp hh] at h)

/-- A command's accesses leave the memory the command leaves; reset is no request on the port (D8). -/
theorem serve_ofCommand {s : State} (hm : s.mem.wf = true) {c : HostCmd} (hc : c ≠ .reset) :
    serve (ofCommand c) s.mem = some (accept c s).mem := by
  cases c with
  | load rom =>
    by_cases hl : rom.length ≤ Config.romMax
    · simp [ofCommand, accept, loadRom, hl, serve_append, serve_zeroFill hm, serve_writes, Memory.ofRom]
    · simp [ofCommand, accept, loadRom, hl]
  | run input => rfl
  | reset => exact absurd rfl hc

/-- The latch's two byte writes are its `MemWrite` (R37, R72). -/
theorem serve_latch (m : Memory) (w : InputWord) :
    serve (writes .inputLatch Config.inAddr [w.extractLsb' 8 8, w.extractLsb' 0 8]) m =
      some (m.memWrite Config.inAddr 2 w.toNat) := by
  rw [serve_writes, m.memWrite_eq_storeBytes]
  simp [List.range_succ]

/-- An instruction's accesses leave the memory of its copy: every read returns what memory holds when it is made, those of
the `next` field after the store among them (R60, R61). -/
theorem serve_ofCpj (m : Memory) (pc : Addr) :
    serve (ofCpj m pc) m = some (m.copyByte (m.srcField pc) (m.dstField pc)) := by
  have store : serve [⟨.data, .read, m.srcField pc, m.read (m.srcField pc)⟩,
      ⟨.data, .write, m.dstField pc, m.read (m.srcField pc)⟩] m =
        some (m.copyByte (m.srcField pc) (m.dstField pc)) := by
    simp [serve, Memory.copyByte]
  simp [ofCpj, serve_append, store, -List.append_assoc, -List.cons_append]

/-- The accesses of a step in Idle other than a reset leave the step's memory. -/
theorem serve_idle {s : State} (hm : s.mem.wf = true) (hp : s.phase = .idle)
    (hr : ¬ ∃ rest, s.host = .reset :: rest) : serve (ofStep s) s.mem = some (idleStep s).mem := by
  cases hh : s.host with
  | nil => simp [ofStep_idle_nil hp hh, idleStep, hh]
  | cons c rest =>
    have hc : c ≠ .reset := fun e => hr ⟨rest, by rw [hh, e]⟩
    rw [ofStep_idle_cons hp hh, show idleStep s = accept c (s.setHost rest) by simp [idleStep, hh]]
    exact serve_ofCommand (s := s.setHost rest) hm hc

/-- The accesses of every step but a reset leave the step's memory. -/
theorem serve_ofStep {s t : State} (hm : s.mem.wf = true) (hstep : step s = .next t)
    (hr : ¬ (s.phase = .idle ∧ ∃ rest, s.host = .reset :: rest)) : serve (ofStep s) s.mem = some t.mem := by
  obtain ⟨hp, rfl⟩ | ⟨hp, rfl⟩ | ⟨hp, rfl⟩ | ⟨hp, hc, rfl⟩ | ⟨hp, hc, rfl⟩ | ⟨hp, rfl⟩ | ⟨hp, rfl⟩ | ⟨hp, rfl⟩ |
    ⟨hp, rfl⟩ := step_cases hstep
  · exact serve_idle hm hp fun reset => hr ⟨hp, reset⟩
  · rw [ofStep_inputLatch hp, serve_latch, latchInput_mem]
  · rw [ofStep_pcLoad hp, serve_reads, loadPc_mem]
  · rw [ofStep_instr hp hc, serve_ofCpj, afterInstr_mem]
  · rw [ofStep_leaveLoop hp hc, serve_nil, leaveLoop_mem]
  · simp [ofStep_audio hp, serve_append]
  · simp [ofStep_video hp, serve_append]
  · rw [ofStep_deliverAudio hp, serve_nil, deliverAudio_mem]
  · rw [ofStep_deliverVideo hp, serve_nil, deliverVideo_mem]

end Port

/-- Settles O44: `serve_ofStep` for every step but a reset, which constructs memory and makes no access. -/
theorem portAccessesInOrderAreTheStep : Obligations.PortAccessesInOrderAreTheStep := by
  intro s t hm hstep
  refine ⟨Port.serve_ofStep hm hstep, fun rest hp hh => ⟨Port.ofStep_idle_cons hp hh, ?_⟩,
    fun hp p => Port.ofStep_idle_requester hp⟩
  rw [step_idle hp] at hstep
  cases hstep
  simp [idleStep, hh, accept, construct, Memory.zeroed]

/-! How many accesses one RUN makes (R41). -/

namespace Port

/-- How many accesses a test on requester and direction alone picks. -/
def countBy (c : Requester → AccessKind → Bool) (l : List PortAccess) : Nat :=
  l.countP fun p => c p.requester p.kind

theorem count_eq_countBy (k : AccessKind) (l : List PortAccess) : count k l = countBy (fun _ k' => k' = k) l := rfl

variable (c : Requester → AccessKind → Bool)

@[simp] theorem countBy_nil : countBy c [] = 0 := rfl

@[simp] theorem countBy_cons (p : PortAccess) (l : List PortAccess) :
    countBy c (p :: l) = (c p.requester p.kind).toNat + countBy c l := by
  rw [countBy, List.countP_cons, Nat.add_comm, countBy]
  cases c p.requester p.kind <;> rfl

@[simp] theorem countBy_append (l l' : List PortAccess) : countBy c (l ++ l') = countBy c l + countBy c l' :=
  List.countP_append

@[simp] theorem countBy_reads (q : Requester) (m : Memory) (a n : Nat) :
    countBy c (reads q m a n) = n * (c q .read).toNat := by
  rw [countBy, countP_reads _ q m a n (c q .read) fun _ _ => rfl]
  cases c q .read <;> simp

@[simp] theorem countBy_writes (q : Requester) (a : Nat) (bs : List Byte) :
    countBy c (writes q a bs) = bs.length * (c q .write).toNat := by
  induction bs generalizing a with
  | nil => simp [writes]
  | cons b bs ih => rw [writes, countBy_cons, ih, List.length_cons, Nat.succ_mul, Nat.add_comm]

/-- What a test picks of the accesses of one instruction: nine field bytes read, the byte read, the byte written (R60). -/
def instrCount : Nat :=
  3 * (c .srcField .read).toNat + 3 * (c .dstField .read).toNat + (c .data .read).toNat + (c .data .write).toNat +
    3 * (c .nextField .read).toNat

/-- What a test picks of the accesses of the two extractions: each selector, then its page (R75, R76). -/
def extractionCount : Nat :=
  2 * (c .audioSelector .read).toNat + Config.audioBytes * (c .audioBlock .read).toNat +
    (c .videoSelector .read).toNat + Config.videoBytes * (c .videoBlock .read).toNat

theorem countBy_ofCpj (m : Memory) (pc : Addr) : countBy c (ofCpj m pc) = instrCount c := by
  simp [ofCpj, instrCount, Nat.add_assoc]

/-- Inside the loop every step makes the accesses of one instruction, whatever memory holds. -/
theorem countBy_loop {s : State} (hp : s.phase = .running .loop) (n : Nat)
    (hn : s.icount.toNat + n ≤ Config.instrPerFrame) : countBy c (portOfSteps n s) = n * instrCount c := by
  induction n generalizing s with
  | zero => simp [portOfSteps]
  | succ n ih =>
    have hc : s.icount.toNat < Config.instrPerFrame := by omega
    have later := ih (s := afterInstr s) hp (by rw [afterInstr_icount, icount_succ_toNat hc]; omega)
    rw [portOfSteps_step (step_instr hp hc), countBy_append, ofStep_instr hp hc, countBy_ofCpj, later, Nat.succ_mul,
      Nat.add_comm]

/-- Once the count is used up the selectors and the pages are read, and leaving the loop and delivery make no access. -/
theorem countBy_frameEnd {s : State} (hp : s.phase = .running .loop) (hc : s.icount.toNat = Config.instrPerFrame) :
    countBy c (portOfSteps 5 s) = extractionCount c := by
  rw [portOfSteps_step (step_leaveLoop hp (by omega)), portOfSteps_step (step_audio rfl),
    portOfSteps_step (step_video rfl), portOfSteps_step (step_deliverAudio rfl),
    portOfSteps_step (step_deliverVideo rfl), ofStep_leaveLoop hp (by omega),
    ofStep_audio (leaveLoop_phase s), ofStep_video (extractAudio_phase _), ofStep_deliverAudio (extractVideo_phase _),
    ofStep_deliverVideo (deliverAudio_phase _)]
  simp [portOfSteps, extractionCount, Nat.add_assoc]

theorem afterInstrs_phase (n : Nat) (s : State) : (afterInstrs n s).phase = s.phase := rfl

theorem afterInstrs_icount (n : Nat) (s : State) : (afterInstrs n s).icount = s.icount + BitVec.ofNat 17 n := rfl

/-- From the start of the loop to Idle: 65,536 instructions, then the extractions. -/
theorem countBy_loopToIdle {s : State} (hp : s.phase = .running .loop) (hc : s.icount = 0#17) :
    countBy c (portOfSteps (Config.instrPerFrame + 5) s) = Config.instrPerFrame * instrCount c + extractionCount c := by
  have fits : s.icount.toNat + Config.instrPerFrame ≤ Config.instrPerFrame := by simp [hc]
  have count : (afterInstrs Config.instrPerFrame s).icount.toNat = Config.instrPerFrame := by
    rw [afterInstrs_icount, hc]
    rfl
  rw [portOfSteps_add (runSteps_loop hp Config.instrPerFrame fits), countBy_append,
    countBy_loop c hp Config.instrPerFrame fits, countBy_frameEnd c ((afterInstrs_phase _ s).trans hp) count]

/-- From Idle with a RUN next: the latch's writes and PCV's reads, then the accesses of the steps from the loop on. -/
theorem portOfSteps_frameStart {s : State} {input : InputWord} {rest : List HostCmd} (hp : s.phase = .idle)
    (hh : s.host = .run input :: rest) (n : Nat) :
    portOfSteps (n + 3) s = ofStep (acceptRun input (s.setHost rest)) ++
      (ofStep (latchInput (acceptRun input (s.setHost rest))) ++
        portOfSteps n (loadPc (latchInput (acceptRun input (s.setHost rest))))) := by
  have accepted : step s = .next (acceptRun input (s.setHost rest)) := by simp [step_idle hp, idleStep, hh, accept]
  rw [portOfSteps_step accepted, portOfSteps_step (step_inputLatch rfl), portOfSteps_step (step_pcLoad rfl),
    ofStep_idle_cons hp hh, ofCommand, List.nil_append]

/-- The accesses of one RUN, requester by requester: the latch, PCV, the instructions of the loop, the extractions
(R40, R71). -/
theorem countBy_frame {s : State} {input : InputWord} {rest : List HostCmd} (hp : s.phase = .idle)
    (hh : s.host = .run input :: rest) :
    countBy c (portOfSteps frameSteps s) =
      2 * (c .inputLatch .write).toNat + 3 * (c .pcVector .read).toNat +
        (Config.instrPerFrame * instrCount c + extractionCount c) := by
  rw [show frameSteps = Config.instrPerFrame + 5 + 3 by unfold frameSteps; omega, portOfSteps_frameStart hp hh,
    countBy_append, countBy_append, countBy_loopToIdle c (loadPc_phase _) (loadPc_icount _), ofStep_inputLatch rfl,
    ofStep_pcLoad (latchInput_phase _), countBy_writes, countBy_reads, ← Nat.add_assoc]
  rfl

end Port

/-- Settles O45: 2 + 65,536 writes and 3 + 655,360 + 258 + 65,537 reads, by `countBy_frame`. -/
theorem oneRunMakesTheCountedAccesses : Obligations.OneRunMakesTheCountedAccesses := by
  intro s input rest hp hh
  rw [Port.count_eq_countBy, Port.count_eq_countBy, Port.countBy_frame _ hp hh, Port.countBy_frame _ hp hh]
  constructor <;> rfl

end Sys2Proof.Machine
end

section
/-! PROOFS. The encoding family: the decoder and the encoder both ways, the 72-bit word and its fields, the word that
`withFetchWord` stores, and the assembler's SPIN. -/

namespace Sys2Proof

/-! The decoder and the encoder (R50, R52, R55). -/

/-- Every instruction has nine bytes and is well formed. -/
theorem encode_length_and_wellFormed (i : Instr) : Laws.EncodeLength.Statement i := by
  cases i with
  | cpj src dst next => exact Laws.EncodeLength.cpj src dst next

@[simp] theorem encode_length (i : Instr) : (encode i).length = 9 := (encode_length_and_wellFormed i).1

@[simp] theorem wellFormed_eq_true (i : Instr) : i.wellFormed = true := (encode_length_and_wellFormed i).2

@[simp] theorem decode_encode (i : Instr) (rest : List Byte) : decode (encode i ++ rest) = .ok (i, rest) := by
  cases i with
  | cpj src dst next => simp [encode, bytes24, decode, decodeNine]

theorem encode_decodeNine (b0 b1 b2 b3 b4 b5 b6 b7 b8 : Byte) :
    encode (decodeNine b0 b1 b2 b3 b4 b5 b6 b7 b8) = [b0, b1, b2, b3, b4, b5, b6, b7, b8] := by
  simp [encode, bytes24, decodeNine]

/-- Any bytes are an encoded instruction with the bytes after it, or fewer than nine, which the decoder rejects. -/
theorem encoded_or_tooFewBytes (bs : List Byte) :
    (∃ i rest, bs = encode i ++ rest) ∨ (bs.length < 9 ∧ decode bs = .error (.tooFewBytes bs.length)) := by
  match bs with
  | b0 :: b1 :: b2 :: b3 :: b4 :: b5 :: b6 :: b7 :: b8 :: rest =>
    exact .inl ⟨decodeNine b0 b1 b2 b3 b4 b5 b6 b7 b8, rest, by rw [encode_decodeNine]; rfl⟩
  | [] | [_] | [_, _] | [_, _, _] | [_, _, _, _] | [_, _, _, _, _] | [_, _, _, _, _, _] | [_, _, _, _, _, _, _]
  | [_, _, _, _, _, _, _, _] => exact .inr ⟨by simp, rfl⟩

/-- What the decoder reads is what was encoded, and nothing else. -/
theorem decode_eq_ok_iff {bs : List Byte} {i : Instr} {rest : List Byte} :
    decode bs = .ok (i, rest) ↔ encode i ++ rest = bs := by
  constructor
  · intro h
    obtain ⟨j, after, rfl⟩ | ⟨-, short⟩ := encoded_or_tooFewBytes bs
    · rw [decode_encode] at h
      cases h
      rfl
    · rw [short] at h
      cases h
  · rintro rfl
    exact decode_encode i rest

/-- Settles O1: both directions are `decode_eq_ok_iff`, and every instruction is well formed. -/
theorem decodeAndEncodeAgree : Obligations.DecodeAndEncodeAgree :=
  ⟨fun i rest _ => decode_encode i rest, fun _ i _ h => ⟨wellFormed_eq_true i, decode_eq_ok_iff.1 h⟩⟩

/-- Settles O2: of the two cases of `encoded_or_tooFewBytes`, the length says which holds. -/
theorem everyNineBytesAreAnInstruction : Obligations.EveryNineBytesAreAnInstruction := by
  intro bs
  obtain ⟨i, rest, rfl⟩ | ⟨short, rejected⟩ := encoded_or_tooFewBytes bs
  · exact ⟨fun _ => ⟨i, by simp, wellFormed_eq_true i⟩, fun short => by simp at short⟩
  · exact ⟨fun long => by omega, fun _ => rejected⟩

/-- Settles O3: the format table is the encoder's definition. -/
theorem encodedBytesFollowTheFormatTable : Obligations.EncodedBytesFollowTheFormatTable :=
  fun _ _ _ => rfl

/-! The 72-bit word (R51, D11). -/

/-- The instruction of a word: `src = w[71:48]`, `dst = w[47:24]`, `next = w[23:0]` (R51). -/
def wordInstr (w : BitVec 72) : Instr := .cpj (w.extractLsb' 48 24) (w.extractLsb' 24 24) (w.extractLsb' 0 24)

/-- Bits taken from a field of a word are bits of the word. -/
theorem extractLsb'_field {n : Nat} (w : BitVec n) (i : Nat) {len j k : Nat} (h : j + k ≤ len) :
    (w.extractLsb' i len).extractLsb' j k = w.extractLsb' (i + j) k := by
  ext b hb
  simp [show j + b < len by omega, Nat.add_assoc]

/-- A word's bytes are those of its instruction. -/
theorem wordBytes_eq_encode (w : BitVec 72) : wordBytes w = encode (wordInstr w) := by
  simp [wordBytes, wordInstr, encode, bytes24, List.range_succ, extractLsb'_field]

theorem wordInstr_encodeWord (i : Instr) : wordInstr (encodeWord i) = i := by
  cases i with
  | cpj src dst next =>
    have hsrc : (src ++ dst ++ next).extractLsb' 48 24 = src :=
      (BitVec.extractLsb'_append_eq_of_le (by omega)).trans BitVec.extractLsb'_append_eq_left
    have hdst : (src ++ dst ++ next).extractLsb' 24 24 = dst :=
      (BitVec.extractLsb'_append_eq_of_le (by omega)).trans BitVec.extractLsb'_append_eq_right
    have hnext : (src ++ dst ++ next).extractLsb' 0 24 = next := BitVec.extractLsb'_append_eq_right
    rw [wordInstr, encodeWord, hsrc, hdst, hnext]

theorem tableWord_toNat (w : BitVec 72) : tableWord 72 w.toNat = w := by
  rw [tableWord, Nat.mod_eq_of_lt w.isLt, BitVec.ofNat_toNat, BitVec.setWidth_eq]

/-- The table decoder reads the fields of the table word. -/
theorem decodeTableWord_eq {nbits : Nat} (h : nbits ≤ 72) (w : Nat) :
    decodeTableWord nbits w = some (wordInstr (tableWord nbits w)) := by
  rw [decodeTableWord, if_pos h, wordBytes_eq_encode, ← List.append_nil (encode _), decode_encode, decodedInstr]

end Sys2Proof

namespace Sys2Proof.Machine

theorem Memory.readField_toNat (m : Memory) (a : Nat) : (m.readField a).toNat = m.memRead a 3 := by
  rw [m.readField_eq, m.memRead_three]

/-- Settles O4: fetch reads three fields of three bytes (`readField_toNat`), and a word's bytes are those of the
instruction of its fields (`wordBytes_eq_encode`). -/
theorem fieldsAreBigEndianAbsoluteAddresses : Obligations.FieldsAreBigEndianAbsoluteAddresses := by
  refine ⟨fun m pc => ⟨m.srcField pc, m.dstField pc, m.nextField pc, fetchInstr_fields m pc, m.readField_toNat _,
    m.readField_toNat _, m.readField_toNat _⟩, fun w => ⟨rfl, ?_⟩, fun i => ?_⟩
  · rw [decodeTableWord_eq le_rfl, tableWord_toNat, wordInstr]
  · rw [decodeTableWord_eq le_rfl, tableWord_toNat, wordInstr_encodeWord]

/-- Settles O5: three by running the decoder, the word of S6 by its fields. -/
theorem specWordsDecodeToTheirInstructions : Obligations.SpecWordsDecodeToTheirInstructions :=
  ⟨rfl, rfl, rfl, decodeTableWord_eq le_rfl _⟩

/-! An instruction's bytes in memory, fetched. -/

/-- Where the nine bytes at `pc` are those of an instruction, it is fetched there. -/
theorem fetchInstr_of_instrBytesAt {m : Memory} {pc : Addr} {i : Instr} (h : m.instrBytesAt pc = encode i) :
    fetchInstr m pc = i := by
  have decoded : decode (m.instrBytesAt pc) = .ok (i, []) := decode_eq_ok_iff.2 (by rw [h, List.append_nil])
  rw [decode_instrBytesAt] at decoded
  cases decoded
  rfl

/-- Bytes stored at an address are read back from it, across the top of memory too. -/
theorem Memory.copyRange_storeBytes {m : Memory} (hm : m.wf = true) (a : Nat) (bs : List Byte)
    (hl : bs.length ≤ 2 ^ 24) : (m.storeBytes a bs).copyRange a bs.length = bs := by
  apply List.ext_getElem (copyRange_length ..)
  intro i _ hi
  rw [← read_storeBytes_masked hm a bs hl i hi]
  simp [copyRange]

/-- An instruction stored at `pc` is fetched there. -/
theorem fetchInstr_storeBytes {m : Memory} (hm : m.wf = true) (pc : Addr) (i : Instr) :
    fetchInstr (m.storeBytes pc.toNat (encode i)) pc = i := by
  apply fetchInstr_of_instrBytesAt
  have back := Memory.copyRange_storeBytes hm pc.toNat (encode i) (by simp)
  rwa [encode_length] at back

/-! The word that `withFetchWord` stores (log 12). -/

/-- Inside the loop a step is exec of the fetched instruction, and the count (R71, R74). -/
theorem step_eq_countInstr {s : State} (hp : s.phase = .running .loop) (hc : loopContinues s = true) :
    step s = countInstr (exec (fetchInstr s.mem s.pc) s) := by
  simp [step, hp, hc]

/-- `atInstruction` is inside the loop with the count not used up. -/
theorem loopContinues_atInstruction (s : State) : loopContinues (atInstruction s) = true := by
  rw [loopContinues_iff]
  by_cases hc : loopContinues s = true
  · simpa [atInstruction, hc] using (loopContinues_iff s).1 hc
  · simp [atInstruction, hc, Config.instrPerFrame]

/-- exec answers a next state for every instruction (R90). -/
theorem exec_eq_next (i : Instr) (s : State) : ∃ t, exec i s = .next t := by
  cases i with
  | cpj src dst next => exact ⟨_, execCpj_next src dst s⟩

/-- Settles O13: the word's bytes are stored at `pc` and fetched from there (`fetchInstr_storeBytes`). -/
theorem withFetchWordRunsThatWord : Obligations.WithFetchWordRunsThatWord := by
  intro s nbits w hm hn
  obtain ⟨t, ran⟩ := exec_eq_next (wordInstr (tableWord nbits w)) (s.withFetchWord nbits w)
  have fetched : fetchInstr (s.withFetchWord nbits w).mem (s.withFetchWord nbits w).pc =
      wordInstr (tableWord nbits w) := by
    simp [State.withFetchWord, atInstruction, wordBytes_eq_encode, fetchInstr_storeBytes hm]
  refine ⟨wordInstr (tableWord nbits w), t, decodeTableWord_eq hn w, ran, ?_, rfl⟩
  have stepped : step (s.withFetchWord nbits w) = _ := step_eq_countInstr rfl (loopContinues_atInstruction _)
  rw [stepped, fetched, ran]
  rfl

/-! Loading an image (R79). -/

/-- Loading the image of a memory with nothing at `n` and above gives that memory back. -/
theorem Memory.ofRom_copyRange {m : Memory} (hm : m.wf = true) {n : Nat} (hn : n ≤ 2 ^ 24)
    (above : ∀ a : Addr, n ≤ a.toNat → m.read a = 0#8) : ofRom (m.copyRange 0 n) = m := by
  refine ext_read (wf_ofRom _) hm fun a => ?_
  rw [ofRom, read_storeBytes wf_zeroed _ _ (by simpa using hn)]
  by_cases ha : a.toNat < n
  · simp [ha, copyRange]
  · simp [ha, above a (by omega)]

end Sys2Proof.Machine

namespace Sys2Proof.Asm

open Sys2Proof.Machine

/-! The assembler (R56, R57, D10). -/

/-- An item whose bytes fit is placed, and the rest after it. -/
theorem place_cons {table : List (Nat × Addr)} {loc : Nat} {it : Item} {bs : List Byte}
    (h : it.bytes table loc = some bs) (hfit : loc + bs.length ≤ Config.memBytes) (rest : List Item) (m : Memory)
    (top : Nat) :
    place table loc (it :: rest) (m, top) =
      place table (it.after loc) rest (m.storeBytes loc bs, if bs.isEmpty then top else max top (loc + bs.length)) := by
  simp [place, h, hfit]

/-- The memory that `SPIN` at `a` leaves. -/
def spinMem (a : Addr) : Memory := Memory.zeroed.storeBytes a.toNat (encode (.cpj 0#24 0#24 a))

theorem wf_spinMem (a : Addr) : (spinMem a).wf = true := Memory.wf_storeBytes Memory.wf_zeroed _ _

/-- Nothing is placed above the nine bytes of SPIN. -/
theorem ofRom_spinMem {a : Addr} (h : a.toNat + 9 ≤ 2 ^ 24) :
    Memory.ofRom ((spinMem a).copyRange 0 (a.toNat + 9)) = spinMem a := by
  refine Memory.ofRom_copyRange (wf_spinMem a) h fun b above => ?_
  rw [spinMem, Memory.read_storeBytes Memory.wf_zeroed _ _ (by simpa using h), encode_length, if_neg (by omega),
    Memory.read_zeroed]

/-- `.org a` moves the location to `a` and places nothing. -/
theorem place_org (table : List (Nat × Addr)) (a : Addr) (rest : List Item) (m : Memory) (top : Nat) :
    place table 0 (.org a :: rest) (m, top) = place table a.toNat rest (m, top) :=
  place_cons (bs := []) rfl (Nat.zero_le _) rest m top

/-- A label places nothing. -/
theorem place_mark (table : List (Nat × Addr)) {loc : Nat} (h : loc ≤ Config.memBytes) (l : Nat) (rest : List Item)
    (m : Memory) (top : Nat) : place table loc (.mark l :: rest) (m, top) = place table loc rest (m, top) :=
  place_cons (bs := []) rfl h rest m top

/-- `SPIN` with room for it places the self-loop at its own location (R57, log 15). -/
theorem place_spin (table : List (Nat × Addr)) {a : Addr} (h : a.toNat + 9 ≤ 2 ^ 24) :
    place table a.toNat [.spin] (Memory.zeroed, 0) = some (spinMem a, a.toNat + 9) := by
  rw [place_cons rfl h, maskAddr_toNat_self]
  rfl

/-- The ROM image is what the placed memory holds up to the highest placed byte. -/
theorem assemble_of_place {items : List Item} {m : Memory} {top : Nat}
    (h : place (labels 0 items) 0 items (Memory.zeroed, 0) = some (m, top)) :
    assemble items = some (m.copyRange 0 top) := by
  rw [assemble, h, Option.map_some]

/-- Settles O49: with or without the label the image is that of `spinMem`, whose load is `spinMem` again. -/
theorem assembledSpinIsASelfLoop : Obligations.AssembledSpinIsASelfLoop := by
  intro a h
  refine ⟨(spinMem a).copyRange 0 (a.toNat + 9), fun l => ?_, ?_, Memory.copyRange_length .., ?_⟩
  · exact assemble_of_place (by rw [place_org, place_mark _ a.isLt.le, place_spin _ h])
  · exact assemble_of_place (by rw [place_org, place_spin _ h])
  · rw [ofRom_spinMem h, spinMem, fetchInstr_storeBytes Memory.wf_zeroed]

end Sys2Proof.Asm
end

section
/-! PROOFS. The copy-and-jump family: the instruction's fields byte by byte and after a store, the step that runs it,
and what it does to its own bytes and to those of the next. -/

namespace Sys2Proof

/-- A multiple of 256 with its low byte replaced is the sum (R68). -/
theorem be24_replace_low {a : Addr} (aligned : a.extractLsb' 0 8 = 0#8) (v : Byte) :
    be24 (a.extractLsb' 16 8) (a.extractLsb' 8 8) v = a + BitVec.setWidth 24 v := by
  obtain ⟨hi, mid, lo⟩ := bytes24_toNat a
  rw [aligned] at lo
  have := a.isLt
  have := v.isLt
  apply BitVec.eq_of_toNat_eq
  rw [be24_toNat, hi, mid, BitVec.toNat_add, BitVec.toNat_setWidth]
  simp only [BitVec.toNat_ofNat] at lo
  omega

end Sys2Proof

namespace Sys2Proof.Machine

/-! Fetch, byte by byte (R51, R63). -/

/-- The fetched instruction in 24-bit modular addition of byte addresses. -/
theorem fetchInstr_bytes (m : Memory) (pc : Addr) : fetchInstr m pc =
    .cpj (be24 (m.read pc) (m.read (pc + 1#24)) (m.read (pc + 2#24)))
      (be24 (m.read (pc + 3#24)) (m.read (pc + 4#24)) (m.read (pc + 5#24)))
      (be24 (m.read (pc + 6#24)) (m.read (pc + 7#24)) (m.read (pc + 8#24))) := by
  rw [fetchInstr_fields, srcField_bytes, dstField_bytes, nextField_bytes]

theorem fetchInstr_eq_cpj_iff {m : Memory} {pc src dst next : Addr} :
    fetchInstr m pc = .cpj src dst next ↔ m.srcField pc = src ∧ m.dstField pc = dst ∧ m.nextField pc = next := by
  rw [fetchInstr_fields, Instr.cpj.injEq]

/-- Settles O6: `fetchInstr_bytes` at the six addresses, whose sums wrap. -/
theorem fetchAtTheTopOfMemoryWraps : Obligations.FetchAtTheTopOfMemoryWraps := fun m =>
  ⟨fetchInstr_bytes m 0xFFFFF7#24, fetchInstr_bytes m 0xFFFFF8#24, fetchInstr_bytes m 0xFFFFFA#24,
    fetchInstr_bytes m 0xFFFFFD#24, fetchInstr_bytes m 0xFFFFFE#24, fetchInstr_bytes m 0xFFFFFF#24⟩

/-! A field after a store (R61, R62). -/

namespace Memory

/-- Copying a byte onto itself changes nothing. -/
theorem copyByte_self {m : Memory} (hm : m.wf = true) (a : Addr) : m.copyByte a a = m := write_read_self hm a

/-- The field at `pc + k` after a byte copy: the copied byte in the place it was stored to, the old bytes elsewhere. -/
theorem readField_copyByte {m : Memory} (hm : m.wf = true) (src dst pc : Addr) {k : Nat} {field : Addr}
    (held : m.readField (pc.toNat + k) = field) :
    (m.copyByte src dst).readField (pc.toNat + k) =
      be24 (if dst = pc + BitVec.ofNat 24 k then m.read src else field.extractLsb' 16 8)
        (if dst = pc + BitVec.ofNat 24 (k + 1) then m.read src else field.extractLsb' 8 8)
        (if dst = pc + BitVec.ofNat 24 (k + 2) then m.read src else field.extractLsb' 0 8) := by
  rw [readField_eq] at held ⊢
  simp only [← held, be24_hi, be24_mid, be24_lo, Nat.add_assoc, maskAddr_add, read_copyByte hm, eq_comm (b := dst)]

/-- A field that a byte copy does not store into keeps its value. -/
theorem readField_copyByte_other {m : Memory} (hm : m.wf = true) (src : Addr) {dst pc : Addr} {k : Nat} {field : Addr}
    (held : m.readField (pc.toNat + k) = field) (h0 : dst ≠ pc + BitVec.ofNat 24 k)
    (h1 : dst ≠ pc + BitVec.ofNat 24 (k + 1)) (h2 : dst ≠ pc + BitVec.ofNat 24 (k + 2)) :
    (m.copyByte src dst).readField (pc.toNat + k) = field := by
  rw [readField_copyByte hm src dst pc held, if_neg h0, if_neg h1, if_neg h2, be24_bytes]

end Memory

/-! The instruction (R60, R62). -/

/-- Settles O14: the byte copy of R60 c, then the jump through the `next` bytes it leaves. -/
theorem cpjCopiesOneByteThenJumps : Obligations.CpjCopiesOneByteThenJumps := by
  refine ⟨fetchInstr_bytes, fun s src dst next hm => ?_⟩
  refine ⟨s.mem.copyByte src dst, ?_, Memory.wf_copyByte hm src dst, ?_, ?_⟩
  · rw [exec_cpj, execCpj_next, nextField_bytes]
    rfl
  · rw [Memory.read_copyByte hm, if_pos rfl]
  · intro a other
    rw [Memory.read_copyByte hm, if_neg other]

/-- Settles O15: each of the three fields after the store is `readField_copyByte`. -/
theorem cpjIntoItsOwnBytes : Obligations.CpjIntoItsOwnBytes := by
  intro s src dst next hm fetched v patched
  obtain ⟨hsrc, hdst, hnext⟩ := fetchInstr_eq_cpj_iff.1 fetched
  refine ⟨_, execCpj_next src dst s, ?_, ?_, fetchInstr_eq_cpj_iff.2 ⟨?_, ?_, rfl⟩⟩
  · exact Memory.read_write_same hm dst v
  · exact Memory.readField_copyByte hm src dst s.pc (k := 6) hnext
  · exact Memory.readField_copyByte hm src dst s.pc (k := 0) hsrc
  · exact Memory.readField_copyByte hm src dst s.pc (k := 3) hdst

/-- Settles O16: the copy leaves the memory as it was (`copyByte_self`), its `next` field among it. -/
theorem cpjOntoItselfOnlyJumps : Obligations.CpjOntoItselfOnlyJumps := by
  intro s a next hm
  rw [exec_cpj, execCpj_next, Memory.copyByte_self hm]
  rfl

/-- Settles O18: O15 with the store at offset 8, and at offset 7, of the instruction. -/
theorem computedJumpReplacesOneByteOfTheTarget : Obligations.ComputedJumpReplacesOneByteOfTheTarget := by
  intro s v target hm
  constructor
  · intro fetched
    obtain ⟨t, ran, -, jump, -⟩ := cpjIntoItsOwnBytes s v _ target hm fetched
    exact ⟨t, ran, by simpa using jump⟩
  · intro fetched
    obtain ⟨t, ran, -, jump, -⟩ := cpjIntoItsOwnBytes s v _ target hm fetched
    exact ⟨t, ran, by simpa using jump⟩

/-! The step that runs it (R68, R71, R74). -/

/-- Settles O12: the nine bytes at `pc` decode to the fetched instruction, which the loop's step executes. -/
theorem stepRunsTheDecodedInstruction : Obligations.StepRunsTheDecodedInstruction := by
  intro s i rest hp hc decoded _
  rw [decode_instrBytesAt] at decoded
  cases decoded
  obtain ⟨t, ran⟩ := exec_eq_next (fetchInstr s.mem s.pc) s
  rw [step_eq_countInstr hp ((loopContinues_iff s).2 hc), ran]
  rfl

/-- Settles O17: the step runs `CPJ a, a`, which only jumps (O16), and the jump is to where it stands. -/
theorem spinOnlyUsesUpTheCount : Obligations.SpinOnlyUsesUpTheCount := by
  intro s a hm hp hc fetched
  obtain ⟨-, -, hnext⟩ := fetchInstr_eq_cpj_iff.1 fetched
  rw [step_eq_countInstr hp ((loopContinues_iff s).2 hc), fetched, cpjOntoItselfOnlyJumps s a _ hm, hnext]
  rfl

/-- The memory after a step is that of the fetched instruction's copy. -/
theorem afterInstr_mem_of_fetch {s : State} {src dst next : Addr}
    (fetched : fetchInstr s.mem s.pc = .cpj src dst next) : (afterInstr s).mem = s.mem.copyByte src dst := by
  obtain ⟨hsrc, hdst, -⟩ := fetchInstr_eq_cpj_iff.1 fetched
  rw [afterInstr_mem, hsrc, hdst]

/-- An instruction that stores outside its own `next` bytes jumps where it was encoded to. -/
theorem afterInstr_pc_of_fetch {s : State} {src dst next : Addr} (hm : s.mem.wf = true)
    (fetched : fetchInstr s.mem s.pc = .cpj src dst next) (h6 : dst ≠ s.pc + 6#24) (h7 : dst ≠ s.pc + 7#24)
    (h8 : dst ≠ s.pc + 8#24) : (afterInstr s).pc = next := by
  obtain ⟨hsrc, hdst, hnext⟩ := fetchInstr_eq_cpj_iff.1 fetched
  rw [afterInstr_pc, hsrc, hdst]
  exact Memory.readField_copyByte_other hm src hnext h6 h7 h8

/-- The table lookup's patch (R68): a byte copied to the low byte of `src` of the instruction at `l1` makes it name the
entry of that number, and leaves its `dst` and `next`. -/
theorem fetchInstr_patched_src {m : Memory} (hm : m.wf = true) (v : Addr) {l1 table r l2 : Addr}
    (fetched : fetchInstr m l1 = .cpj table r l2) (aligned : table.extractLsb' 0 8 = 0#8) :
    fetchInstr (m.copyByte v (l1 + 2#24)) l1 = .cpj (table + BitVec.setWidth 24 (m.read v)) r l2 := by
  obtain ⟨hsrc, hdst, hnext⟩ := fetchInstr_eq_cpj_iff.1 fetched
  refine fetchInstr_eq_cpj_iff.2 ⟨?_, ?_, ?_⟩
  · refine (Memory.readField_copyByte hm v _ l1 (k := 0) hsrc).trans ?_
    simp [be24_replace_low aligned]
  · exact Memory.readField_copyByte_other hm v hdst (by simp) (by simp) (by simp)
  · exact Memory.readField_copyByte_other hm v hnext (by simp) (by simp) (by simp)

/-- Settles O19: the first step patches the second instruction's `src` to the entry (`fetchInstr_patched_src`) and jumps
to it; the second copies the entry, which the patch has left as it was. -/
theorem tableLookupCopiesTheEntry : Obligations.TableLookupCopiesTheEntry := by
  intro s v l1 table r l2 hm hp hc patching lookup aligned h6 h7 h8 entry
  have hc0 : s.icount.toNat < Config.instrPerFrame := Nat.lt_of_succ_lt hc
  have hc1 : (afterInstr s).icount.toNat < Config.instrPerFrame := by
    rwa [afterInstr_icount, icount_succ_toNat hc0]
  have mem1 := afterInstr_mem_of_fetch patching
  have fetched1 := fetchInstr_patched_src hm v lookup aligned
  rw [← mem1, ← afterInstr_pc_of_fetch hm patching h6 h7 h8] at fetched1
  refine ⟨afterInstr (afterInstr s), ?_, ?_⟩
  · rw [run_step (step_instr hp hc0), run_one, step_instr (s := afterInstr s) hp hc1]
  · rw [afterInstr_mem_of_fetch fetched1, mem1, Memory.read_copyByte (Memory.wf_copyByte hm _ _), if_pos rfl,
      Memory.read_copyByte hm, if_neg entry.symm]

end Sys2Proof.Machine
end

section
/-! PROOFS. The frame sequencer family: the host's commands in Idle, the phase, RUN step by step, the frames it extracts
and delivers, and one RUN as the frame function. -/

namespace Sys2Proof.Machine

/-! Idle: the host's commands (R70, R79, R80, R81). -/

/-- In Idle the host's next command is taken. -/
theorem step_command {s : State} {c : HostCmd} {rest : List HostCmd} (hp : s.phase = .idle) (hh : s.host = c :: rest) :
    step s = .next (accept c (s.setHost rest)) := by
  rw [step_idle hp, idleStep, hh]

/-- Settles O23: the command taken is `construct`, the reset state with `host` and `out` kept (D8). -/
theorem resetCommandConstructsAnew : Obligations.ResetCommandConstructsAnew := by
  intro s rest hp hh
  rw [step_command hp hh]
  rfl

/-- Settles O24: with no command `idleStep` is the identity. -/
theorem idleWithoutACommandStays : Obligations.IdleWithoutACommandStays := by
  intro s hp hh
  rw [step_idle hp, idleStep, hh]

theorem loadRom_of_le {rom : List Byte} (h : rom.length ≤ Config.romMax) (s : State) :
    loadRom rom s = (s.setMem (Memory.ofRom rom)).emit [.loaded] := if_pos h

theorem loadRom_of_gt {rom : List Byte} (h : Config.romMax < rom.length) (s : State) :
    loadRom rom s = s.emit [.romTooLarge] := if_neg (Nat.not_le_of_lt h)

/-- A loaded memory holds the ROM's bytes below its length and zero above (R79). -/
theorem Memory.read_ofRom {rom : List Byte} (h : rom.length ≤ 2 ^ 24) (a : Addr) :
    (ofRom rom).read a = if a.toNat < rom.length then rom.getD a.toNat 0 else 0#8 := by
  rw [ofRom, read_storeBytes wf_zeroed 0 rom (by simpa using h)]
  simp

/-- Settles O25: the length check passes, and the memory loaded is `read_ofRom`'s. -/
theorem loadZeroFillsThenCopiesTheRom : Obligations.LoadZeroFillsThenCopiesTheRom := by
  intro s rom rest hp hh fits
  refine ⟨Memory.ofRom rom, ?_, Memory.wf_ofRom rom, fun a below => ?_, fun a above => ?_⟩
  · rw [step_command hp hh, accept, loadRom_of_le fits]
    rfl
  · rw [Memory.read_ofRom fits, if_pos below, List.getD_eq_getElem _ _ below]
  · rw [Memory.read_ofRom fits, if_neg (Nat.not_lt_of_le above)]

/-- Settles O26: the length check fails before any cell is written (D7). -/
theorem tooLargeRomChangesNothing : Obligations.TooLargeRomChangesNothing := by
  intro s rom rest hp hh tooLarge
  rw [step_command hp hh, accept, loadRom_of_gt tooLarge]
  rfl

/-! The phase (R70, R86). -/

/-- Settles O27: no step of Running reads or writes `host`, the loop's two by the count, which `host` is no part of. -/
theorem runningTakesNoCommand : Obligations.RunningTakesNoCommand := by
  intro s cs running
  change ∃ t, step s = .next t ∧ t.host = s.host ∧ step (s.setHost cs) = .next (t.setHost cs)
  cases hp : s.phase with
  | idle => exact absurd hp running
  | running stage =>
    cases stage with
    | inputLatch => exact ⟨_, step_inputLatch hp, rfl, step_inputLatch hp⟩
    | pcLoad => exact ⟨_, step_pcLoad hp, rfl, step_pcLoad hp⟩
    | loop =>
      by_cases hc : s.icount.toNat < Config.instrPerFrame
      · exact ⟨_, step_instr hp hc, rfl, step_instr hp hc⟩
      · exact ⟨_, step_leaveLoop hp hc, rfl, step_leaveLoop hp hc⟩
    | audio => exact ⟨_, step_audio hp, rfl, step_audio hp⟩
    | video => exact ⟨_, step_video hp, rfl, step_video hp⟩
    | deliverAudio => exact ⟨_, step_deliverAudio hp, rfl, step_deliverAudio hp⟩
    | deliverVideo => exact ⟨_, step_deliverVideo hp, rfl, step_deliverVideo hp⟩

/-- A step in Idle leaves Idle exactly when it accepts a RUN. -/
theorem idleStep_phase_ne_idle_iff {s : State} (hp : s.phase = .idle) :
    (idleStep s).phase ≠ .idle ↔ ∃ input rest, s.host = .run input :: rest := by
  obtain ⟨hh, e⟩ | ⟨rom, rest, hh, -, e⟩ | ⟨rom, rest, hh, -, e⟩ | ⟨input, rest, hh, e⟩ | ⟨rest, hh, e⟩ :=
    idleStep_cases s <;> simp [e, hh, hp]

/-- Settles O28: in Idle by `idleStep_phase_ne_idle_iff`; of the steps of Running only `deliverVideo` sets Idle. -/
theorem phaseChangesOnlyByRunAndVideoDelivery : Obligations.PhaseChangesOnlyByRunAndVideoDelivery := by
  intro s t hstep
  obtain ⟨hp, rfl⟩ | ⟨hp, rfl⟩ | ⟨hp, rfl⟩ | ⟨hp, -, rfl⟩ | ⟨hp, -, rfl⟩ | ⟨hp, rfl⟩ | ⟨hp, rfl⟩ | ⟨hp, rfl⟩ |
    ⟨hp, rfl⟩ := step_cases hstep
  · exact ⟨fun _ => idleStep_phase_ne_idle_iff hp, fun running => absurd hp running⟩
  all_goals simp [hp]

/-! RUN up to the loop (R72, R73). -/

/-- Settles O29: acceptance and the latch step, whose memory is `read_latched`'s. -/
theorem runLatchesItsArgumentFirst : Obligations.RunLatchesItsArgumentFirst := by
  intro s input rest hm hp hh
  refine ⟨s.mem.memWrite Config.inAddr 2 input.toNat, ?_, Memory.wf_memWrite hm _ _ _, ?_, ?_, fun a h0 h1 => ?_⟩
  · rw [run_step (step_command hp hh), run_one, accept, step_inputLatch rfl]
    rfl
  · rw [Memory.read_latched hm, if_pos rfl]
  · rw [Memory.read_latched hm, if_neg (by decide), if_pos rfl]
  · rw [Memory.read_latched hm, if_neg h0, if_neg h1]

/-- The input latch leaves the program counter vector as it was (R17, R72). -/
theorem Memory.pcVector_latched {m : Memory} (hm : m.wf = true) (input : InputWord) :
    (m.memWrite Config.inAddr 2 input.toNat).pcVector = m.pcVector := by
  simp [pcVector_eq, read_latched hm]

/-- Settles O30: the third step loads PCV from the latched memory, and the latch has left PCV alone. -/
theorem runStartsAtTheProgramCounterVector : Obligations.RunStartsAtTheProgramCounterVector := by
  intro s input rest hm hp hh
  have run : runSteps 3 s = .next (frameLoop s input rest 0) := runSteps_frameLoop hp hh (Nat.zero_le _)
  rw [frameLoop_eq] at run
  refine ⟨_, run, rfl, rfl, ?_⟩
  rw [← Memory.pcVector_eq, ← Memory.pcVector_latched hm input]
  rfl

/-! The loop (R74). -/

/-- The state after `n` instructions from the start of the loop, written out. -/
theorem afterInstrs_of_start {s : State} (hc : s.icount = 0#17) (n : Nat) :
    afterInstrs n s =
      { s with mem := (instrsOn n (s.mem, s.pc)).1, pc := (instrsOn n (s.mem, s.pc)).2, icount := BitVec.ofNat 17 n } := by
  apply State.ext_fields <;> simp [afterInstrs, hc]

/-- Settles O31: the instructions are `runSteps_loop`; after the last the count is used up and the step leaves the loop. -/
theorem loopExecutesExactly65536Instructions : Obligations.LoopExecutesExactly65536Instructions := by
  intro s hp hc
  have run : ∀ n, n ≤ 65536 → runSteps n s = .next
      { s with mem := (instrsOn n (s.mem, s.pc)).1, pc := (instrsOn n (s.mem, s.pc)).2,
               icount := BitVec.ofNat 17 n } := by
    intro n hn
    have fits : s.icount.toNat + n ≤ Config.instrPerFrame := by simpa [hc, Config.instrPerFrame] using hn
    rw [runSteps_loop hp n fits, afterInstrs_of_start hc]
  refine ⟨run, ?_⟩
  have last := run 65536 le_rfl
  have usedUp : ¬ (65536#17).toNat < Config.instrPerFrame := by decide
  generalize instrsOn 65536 (s.mem, s.pc) = c at last ⊢
  exact (run_succ last).trans (step_leaveLoop hp usedUp)

/-! The frames (R75, R76). -/

/-- Byte `i` of an audio page is at the page's two bytes with `i` after them (R19, R75). -/
theorem maskAddr_audioPage (b0 b1 i : Byte) : maskAddr ((be24 b0 b1 0#8).toNat + i.toNat) = be24 b0 b1 i := by
  rw [← maskAddr_toNat_self (be24 b0 b1 i)]
  simp [be24_toNat]

/-- Byte `i` of a video page is at the page's byte with the two bytes of `i` after it (R18, R76). -/
theorem maskAddr_videoPage (b : Byte) (i : BitVec 16) :
    maskAddr ((be24 b 0#8 0#8).toNat + i.toNat) = be24 b (i.extractLsb' 8 8) (i.extractLsb' 0 8) := by
  rw [← maskAddr_toNat_self (be24 b (i.extractLsb' 8 8) (i.extractLsb' 0 8))]
  congr 1
  have := i.isLt
  simp only [be24_toNat, BitVec.extractLsb'_toNat, Nat.shiftRight_eq_div_pow, BitVec.toNat_ofNat]
  omega

/-- Settles O32: the base is `audioBase_eq`, and the frame is the 256 bytes copied from it. -/
theorem audioFrameIsTheSelectedPage : Obligations.AudioFrameIsTheSelectedPage := by
  intro s hp
  refine ⟨s.mem.copyRange s.mem.audioBase.toNat Config.audioBytes, ?_, Memory.copyRange_length .., fun i => ?_⟩
  · rw [step_audio hp, ← Memory.audioBase_eq]
    rfl
  · rw [Memory.copyRange_getElem? _ _ Config.audioBytes _ i.isLt, Memory.audioBase_eq, maskAddr_audioPage]

/-- Settles O33: the base is `videoBase_eq`, the frame is the 65,536 bytes copied from it, and a pixel is the byte whose
number is its row and column. -/
theorem videoFrameIsTheSelectedPage : Obligations.VideoFrameIsTheSelectedPage := by
  intro s hp
  have byte : ∀ i : BitVec 16, (s.mem.copyRange s.mem.videoBase.toNat Config.videoBytes)[i.toNat]? =
      some (s.mem.read (be24 (s.mem.read 5#24) (i.extractLsb' 8 8) (i.extractLsb' 0 8))) := by
    intro i
    rw [Memory.copyRange_getElem? _ _ Config.videoBytes _ i.isLt, Memory.videoBase_eq, maskAddr_videoPage]
  refine ⟨s.mem.copyRange s.mem.videoBase.toNat Config.videoBytes, ?_, Memory.copyRange_length .., byte, fun r c => ?_⟩
  · rw [step_video hp, ← Memory.videoBase_eq]
    rfl
  · have row : (r ++ c : BitVec 16).extractLsb' 8 8 = r := BitVec.extractLsb'_append_eq_left
    have column : (r ++ c : BitVec 16).extractLsb' 0 8 = c := BitVec.extractLsb'_append_eq_right
    rw [FramePort.pixel, byte, row, column]

/-! Delivery (R77, R78). -/

/-- Settles O35: the two delivery steps, each handing out the frame held. -/
theorem audioIsDeliveredBeforeVideo : Obligations.AudioIsDeliveredBeforeVideo := by
  intro s a v hp audio video
  rw [run_step (step_deliverAudio hp), run_one, step_deliverVideo (deliverAudio_phase s)]
  refine congrArg Host.Outcome.next ?_
  apply State.ext_fields <;> simp [audio, video]

/-- Settles O34: both extractions read the memory the loop left, and O35 hands out the frames they hold. -/
theorem framesAreOneSnapshotOfTheFinalMemory : Obligations.FramesAreOneSnapshotOfTheFinalMemory := by
  intro s hp
  rw [run_step (step_audio hp), run_step (step_video (extractAudio_phase s)),
    audioIsDeliveredBeforeVideo _ _ _ (extractVideo_phase _) (extractVideo_audio _) (extractVideo_video _)]
  exact ⟨_, rfl, rfl, rfl, rfl, rfl⟩

/-! One RUN (R71, R84, R87). -/

/-- Settles O36: `runSteps_frame`, whose last state is `afterFrame`. -/
theorem runComputesTheFrameFunction : Obligations.RunComputesTheFrameFunction :=
  fun _ _ _ hp hh => runSteps_frame hp hh

/-- Settles O37: both RUNs are the frame function of one memory and one input. -/
theorem frameDependsOnMemoryAndInputOnly : Obligations.FrameDependsOnMemoryAndInputOnly := by
  intro s s' input rest rest' hp hp' hh hh' mem
  have run' := runSteps_frame hp' hh'
  rw [← mem] at run'
  exact ⟨_, _, _, _, runSteps_frame hp hh, run', rfl, afterFrame_out .., afterFrame_out ..⟩

/-- Settles O46: by `countBy_frame` the stores are one an instruction, and the latch's writes are its two. -/
theorem oneRunPerforms65536Copies : Obligations.OneRunPerforms65536Copies := by
  intro s input rest hp hh
  exact ⟨Port.countBy_frame (fun q k => q = .data ∧ k = .write) hp hh,
    Port.countBy_frame (fun q k => q = .inputLatch ∧ k = .write) hp hh⟩

/-! Pixel values (R83). -/

namespace FramePort

theorem cubeIndex_lt (r g b : Fin 6) : cubeIndex r g b < 216 := by
  unfold cubeIndex
  omega

/-- The channels are the base-6 digits of the index. -/
theorem colourOf_cubeIndex (r g b : Fin 6) : colourOf (BitVec.ofNat 8 (cubeIndex r g b)) = .cube r g b := by
  have bound := cubeIndex_lt r g b
  have value : (BitVec.ofNat 8 (cubeIndex r g b)).toNat = cubeIndex r g b := Nat.mod_eq_of_lt (by omega)
  rw [colourOf, value, if_pos bound]
  simp only [Colour.cube.injEq, Fin.ext_iff, Fin.val_ofNat, cubeIndex]
  omega

end FramePort

/-- Settles O48: the cube by its base-6 digits, the sentinel by the bound. -/
theorem pixelValuesIndexTheColourCube : Obligations.PixelValuesIndexTheColourCube :=
  ⟨fun r g b => ⟨FramePort.cubeIndex_lt r g b, FramePort.colourOf_cubeIndex r g b⟩,
    fun _ h => if_neg (Nat.not_lt_of_le h)⟩

end Sys2Proof.Machine
end

section
/-! PROOFS. The exceptions family (60_exceptions.md): nothing faults or is refused. -/

namespace Sys2Proof.Machine

/-- Every step answers a next state: in Idle `idleStep`'s (log 1, log 8), while Running by O27, which names the
next state of each stage whatever the host holds (R90). -/
theorem step_answersNext (s : State) : s.AnswersNext := by
  by_cases hp : s.phase = .idle
  · exact ⟨_, step_idle hp⟩
  · obtain ⟨t, stepped, -⟩ := runningTakesNoCommand s s.host hp
    exact ⟨t, stepped⟩

/-- Settles O20: `exec_eq_next` for the instructions, `step_answersNext` for the steps. -/
theorem nothingFaults : Obligations.NothingFaults :=
  ⟨exec_eq_next, step_answersNext⟩

end Sys2Proof.Machine
end

section
/-! PROOFS. The reset and hazards family (70_reset_and_hazards.md): the reset state, and a RUN over zeroed memory. -/

namespace Sys2Proof.Machine

/-- Settles O21: the reset memory is the zeroed one (R100). -/
theorem resetIsZeroedAndIdle : Obligations.ResetIsZeroedAndIdle :=
  ⟨Memory.read_zeroed, State.reset_phase⟩

/-! Zeroed memory with a word latched (R112). -/

namespace Memory

/-- The zeroed memory with an input word latched into it (R72). -/
def latchedZero (w : InputWord) : Memory := zeroed.memWrite Config.inAddr 2 w.toNat

@[simp] theorem wf_latchedZero (w : InputWord) : (latchedZero w).wf = true := wf_memWrite wf_zeroed _ _ _

theorem read_latchedZero (w : InputWord) (a : Addr) :
    (latchedZero w).read a = if a = 0#24 then w.extractLsb' 8 8 else if a = 1#24 then w.extractLsb' 0 8 else 0#8 :=
  read_latched wf_zeroed w a

/-- With the high byte cleared the low byte is all there is. -/
theorem read_latchedZero_low (b : Byte) (a : Addr) :
    (latchedZero (0#8 ++ b)).read a = if a = 1#24 then b else 0#8 := by
  have high : (0#8 ++ b : InputWord).extractLsb' 8 8 = 0#8 := BitVec.extractLsb'_append_eq_left
  have low : (0#8 ++ b : InputWord).extractLsb' 0 8 = b := BitVec.extractLsb'_append_eq_right
  rw [read_latchedZero, high, low]
  by_cases h0 : a = 0#24
  · simp [h0]
  · rw [if_neg h0]

/-- The cell that the first instruction copies is zero: its address has low byte zero, so it is not 1, and where it is 0
the high input byte is zero (R112). -/
theorem read_latchedZero_input (w : InputWord) :
    (latchedZero w).read (be24 (w.extractLsb' 8 8) (w.extractLsb' 0 8) 0#8) = 0#8 := by
  generalize ha : be24 (w.extractLsb' 8 8) (w.extractLsb' 0 8) 0#8 = a
  have high : a.extractLsb' 16 8 = w.extractLsb' 8 8 := by rw [← ha, be24_hi]
  have low : a.extractLsb' 0 8 = 0#8 := by rw [← ha, be24_lo]
  rw [read_latchedZero]
  split_ifs with h0 h1
  · rw [← high, h0]
    rfl
  · rw [h1] at low
    exact absurd low (by decide)
  · rfl

/-- Copying that cell to address 0 clears the high input byte. -/
theorem copyByte_latchedZero (w : InputWord) :
    (latchedZero w).copyByte (be24 (w.extractLsb' 8 8) (w.extractLsb' 0 8) 0#8) 0#24 =
      latchedZero (0#8 ++ w.extractLsb' 0 8) := by
  refine ext_read (wf_copyByte (wf_latchedZero w) _ _) (wf_latchedZero _) fun a => ?_
  rw [read_copyByte (wf_latchedZero w), read_latchedZero_input, read_latchedZero, read_latchedZero_low]
  by_cases h0 : a = 0#24
  · simp [h0]
  · rw [if_neg h0, if_neg h0]

@[simp] theorem pcVector_latchedZero (w : InputWord) : (latchedZero w).pcVector = 0#24 := by
  simp [pcVector_eq, read_latchedZero, be24]

@[simp] theorem audioBase_latchedZero (w : InputWord) : (latchedZero w).audioBase = 0#24 := by
  simp [audioBase_eq, read_latchedZero, be24]

@[simp] theorem videoBase_latchedZero (w : InputWord) : (latchedZero w).videoBase = 0#24 := by
  simp [videoBase_eq, read_latchedZero, be24]

/-- Page 0, where the low input byte is all there is: byte 1 is that byte, and every other byte is zero. -/
theorem copyRange_latchedZero_low (b : Byte) {n i : Nat} (hn : n ≤ 2 ^ 24) (hi : i < n) :
    ((latchedZero (0#8 ++ b)).copyRange 0 n)[i]? = some (if i = 1 then b else 0#8) := by
  have one : maskAddr i = 1#24 ↔ i = 1 := maskAddr_inj (b := 1) (by omega) (by decide)
  rw [copyRange_getElem? _ _ _ _ hi, Nat.zero_add, read_latchedZero_low]
  simp only [one]

end Memory

/-- The instruction at 0 is `CPJ w ++ 0x00, 0, 0`. -/
theorem fetchInstr_latchedZero (w : InputWord) : fetchInstr (Memory.latchedZero w) 0#24 =
    .cpj (be24 (w.extractLsb' 8 8) (w.extractLsb' 0 8) 0#8) 0#24 0#24 := by
  simp [fetchInstr_bytes, Memory.read_latchedZero, be24]

/-- One instruction clears the high input byte and jumps back to 0. -/
theorem cpjOn_latchedZero (w : InputWord) :
    cpjOn (Memory.latchedZero w, 0#24) = (Memory.latchedZero (0#8 ++ w.extractLsb' 0 8), 0#24) := by
  obtain ⟨hsrc, hdst, -⟩ := fetchInstr_eq_cpj_iff.1 (fetchInstr_latchedZero w)
  obtain ⟨-, -, hnext⟩ := fetchInstr_eq_cpj_iff.1 (fetchInstr_latchedZero (0#8 ++ w.extractLsb' 0 8))
  simp only [cpjOn, hsrc, hdst, Memory.copyByte_latchedZero, hnext]

/-- After the first instruction nothing more changes, however many follow. -/
theorem instrsOn_latchedZero (w : InputWord) (n : Nat) :
    instrsOn (n + 1) (Memory.latchedZero w, 0#24) = (Memory.latchedZero (0#8 ++ w.extractLsb' 0 8), 0#24) := by
  have low : (0#8 ++ w.extractLsb' 0 8 : InputWord).extractLsb' 0 8 = w.extractLsb' 0 8 :=
    BitVec.extractLsb'_append_eq_right
  induction n with
  | zero => exact cpjOn_latchedZero w
  | succ n ih => rw [instrsOn_succ, ih, cpjOn_latchedZero, low]

/-- Both frames are page 0. -/
theorem extractFrames_latchedZero (w : InputWord) (pc : Addr) :
    extractFrames (Memory.latchedZero w, pc) =
      { mem := Memory.latchedZero w
        audio := (Memory.latchedZero w).copyRange 0 Config.audioBytes
        video := (Memory.latchedZero w).copyRange 0 Config.videoBytes
        pc := pc } := by
  rw [extractFrames, Memory.audioBase_latchedZero, Memory.videoBase_latchedZero]
  rfl

theorem frameStart_zeroed (input : InputWord) :
    frameStart Memory.zeroed input = (Memory.latchedZero input, 0#24) :=
  congrArg (Prod.mk _) (Memory.pcVector_latchedZero input)

/-- The frame function over zeroed memory: 65,536 instructions leave the low input byte and nothing else (R112). -/
theorem runFrame_zeroed (input : InputWord) :
    runFrame Memory.zeroed input = extractFrames (Memory.latchedZero (0#8 ++ input.extractLsb' 0 8), 0#24) := by
  rw [runFrame, frameStart_zeroed, show Config.instrPerFrame = 65535 + 1 from rfl, instrsOn_latchedZero]

/-- A RUN over zeroed memory leaves the low input byte at 1 and hands out page 0 twice (R112). -/
theorem runSteps_frame_zeroed {s : State} {input : InputWord} {rest : List HostCmd} (hm : s.mem = Memory.zeroed)
    (hp : s.phase = .idle) (hh : s.host = .run input :: rest) :
    ∃ t, runSteps frameSteps s = .next t ∧ t.mem = Memory.latchedZero (0#8 ++ input.extractLsb' 0 8) ∧
      t.out = s.out ++
        [.audio (t.mem.copyRange 0 Config.audioBytes), .video (t.mem.copyRange 0 Config.videoBytes)] := by
  have frame := runSteps_frame hp hh
  rw [hm, runFrame_zeroed, extractFrames_latchedZero] at frame
  exact ⟨_, frame, rfl, by rw [afterFrame_mem, afterFrame_out]⟩

/-- Settles O39: the two fetches are `fetchInstr_latchedZero` with the input and then with its high byte cleared, and the
frame is `runSteps_frame_zeroed`. -/
theorem runOnZeroedMemory : Obligations.RunOnZeroedMemory := by
  intro s input rest hm hp hh
  have atFirst : runSteps 3 s = .next (frameLoop s input rest 0) := runSteps_frameLoop hp hh (Nat.zero_le _)
  have atSecond : runSteps 4 s = .next (frameLoop s input rest 1) := runSteps_frameLoop (n := 1) hp hh (by decide)
  rw [frameLoop_eq, hm, frameStart_zeroed] at atFirst atSecond
  rw [instrsOn_latchedZero] at atSecond
  have second := fetchInstr_latchedZero (0#8 ++ input.extractLsb' 0 8)
  rw [BitVec.extractLsb'_append_eq_left, BitVec.extractLsb'_append_eq_right] at second
  obtain ⟨t, frame, mem, out⟩ := runSteps_frame_zeroed hm hp hh
  rw [mem] at out
  exact ⟨⟨_, atFirst, rfl, fetchInstr_latchedZero input⟩, ⟨_, atSecond, rfl, second⟩,
    t, _, _, frame, fun b => by rw [mem, Memory.read_latchedZero_low], out,
    Memory.copyRange_length .., Memory.copyRange_length ..,
    fun _ => Memory.copyRange_latchedZero_low _ (by decide), fun _ => Memory.copyRange_latchedZero_low _ (by decide)⟩

end Sys2Proof.Machine
end
